-- ==== Sys2Proof/Word.lean ====
section
/-! DEFINITION. The value types of the colors CORE (00_scope.md rule R8): unsigned bit vectors only, no signed values anywhere. -/

namespace Sys2Proof

/-- `u8`, `byte`: one byte of a channel, of BUF or of an operand (rule R8). -/
abbrev Byte := BitVec 8

/-- `u24`: a color, `red ++ green ++ blue` (20_memory.md rule R57). -/
abbrev Color := BitVec 24

/-- `u2`: a stored palette index, one field of a packed byte; also a sub-position (00_scope.md rule R11). -/
abbrev Index := BitVec 2

end Sys2Proof
end

