-- ==== Sys2Proof/Config.lean ====
section
/-! DEFINITION. What this hardware fixes: the two named parameters of the spec and its fixed widths (00_scope.md rules R6, R7).
There are no free values: 93_implementation_defined.md says that nothing in this hardware is unpredictable. -/

namespace Sys2Proof

/-- The two parameters a model may take as arguments (00_scope.md rule R7). -/
structure Params where
  /-- `P_BATCH_ATOMIC`: a failing batch leaves BUF as it was (42_pixelframe.md rule R149) instead of keeping the writes
  of the elements before the failing one (rule R148). -/
  batchAtomic : Bool
  /-- `P_EVENTS`: the notifications are implemented (60_exceptions.md rule R176). -/
  events : Bool
  deriving DecidableEq, Repr

/-- The values this hardware takes: `P_BATCH_ATOMIC = 0`, `P_EVENTS = 1` (00_scope.md rule R7). -/
def Config.params : Params := { batchAtomic := false, events := true }

/-- Largest element count of a sequence operand: counts are 8 bits (00_scope.md rule R7, `COUNT_OPERAND_BITS`). -/
def Config.maxCount : Nat := 255

/-- `BUF_CAPACITY` in bytes (00_scope.md rule R7). -/
def Config.bufCapacity : Nat := 16257

/-- The longest command in bytes, a `BATCH` of three times 255 elements (30_encoding.md rule R62). -/
def Config.maxCommandBytes : Nat := 769

end Sys2Proof
end

