-- ==== Sys2Proof/Syntax.lean ====
section
/-! DEFINITION. The twenty commands (30_encoding.md rule R64), one constructor per row of the opcode table, operands in the
order of the table and at the width of rule R65: every one-byte operand at its full 8 bits, a color as one 24-bit value,
a sequence as a list (its count byte is the list's length). -/

namespace Sys2Proof

/-- The name of a command: one per assigned opcode byte (30_encoding.md rule R64). -/
inductive Opcode where
  | pack | unpack
  | cidx | cfromidx | packidx | unpackidx | idxat | setidxat | c2i | i2c
  | construct | setpx | getpx | setpxc | getpxc | getraw | getidx | getcol | freset | batch
  deriving DecidableEq, Repr

/-- The nine command formats (30_encoding.md rule R61). -/
inductive Format where
  | F0 | F1 | F2 | F3 | FC | FXC | FS1 | FS3 | FB
  deriving DecidableEq, Repr

/-- A command with its operands (30_encoding.md rule R64). -/
inductive Instr where
  | pack (r g b : Byte)
  | unpack (c : Color)
  | cidx (c : Color)
  | cfromidx (idx : Byte)
  | packidx (idxs : List Byte)
  | unpackidx (byte : Byte)
  | idxat (byte pos : Byte)
  | setidxat (byte pos idx : Byte)
  | c2i (cs : List Color)
  | i2c (idxs : List Byte)
  | construct (size : Byte)
  | setpx (x y idx : Byte)
  | getpx (x y : Byte)
  | setpxc (x y : Byte) (c : Color)
  | getpxc (x y : Byte)
  | getraw
  | getidx
  | getcol
  | freset (fill : Byte)
  | batch (xs ys ids : List Byte)
  deriving DecidableEq, Repr

/-- Which command an instruction is. -/
def Instr.opcode : Instr → Opcode
  | .pack _ _ _ => .pack
  | .unpack _ => .unpack
  | .cidx _ => .cidx
  | .cfromidx _ => .cfromidx
  | .packidx _ => .packidx
  | .unpackidx _ => .unpackidx
  | .idxat _ _ => .idxat
  | .setidxat _ _ _ => .setidxat
  | .c2i _ => .c2i
  | .i2c _ => .i2c
  | .construct _ => .construct
  | .setpx _ _ _ => .setpx
  | .getpx _ _ => .getpx
  | .setpxc _ _ _ => .setpxc
  | .getpxc _ _ => .getpxc
  | .getraw => .getraw
  | .getidx => .getidx
  | .getcol => .getcol
  | .freset _ => .freset
  | .batch _ _ _ => .batch

end Sys2Proof
end

