-- ==== Sys2Proof/WellFormed.lean ====
section
/-! DEFINITION. Which instructions have an encoding: sequence operands of at most 255 elements, the count being one byte
(30_encoding.md rules R61, R78). Nothing else can be ill-formed: no command has a reserved operand bit (rule R61). -/

namespace Sys2Proof

/-- A sequence operand fits its count byte. -/
def fitsCount {α : Type} (l : List α) : Bool := decide (l.length ≤ Config.maxCount)

/-- The instruction has an encoding (30_encoding.md rule R78). -/
def Instr.wellFormed : Instr → Bool
  | .pack _ _ _ => true
  | .unpack _ => true
  | .cidx _ => true
  | .cfromidx _ => true
  | .packidx idxs => fitsCount idxs
  | .unpackidx _ => true
  | .idxat _ _ => true
  | .setidxat _ _ _ => true
  | .c2i cs => fitsCount cs
  | .i2c idxs => fitsCount idxs
  | .construct _ => true
  | .setpx _ _ _ => true
  | .getpx _ _ => true
  | .setpxc _ _ _ => true
  | .getpxc _ _ => true
  | .getraw => true
  | .getidx => true
  | .getcol => true
  | .freset _ => true
  | .batch xs ys ids => fitsCount xs && fitsCount ys && fitsCount ids

/-- The check as a proposition. -/
abbrev Instr.WellFormed (i : Instr) : Prop := i.wellFormed = true

end Sys2Proof
end

