-- ==== Sys2Proof/Decode.lean ====
section
/-! DEFINITION. The command decoder, total on any byte list (30_encoding.md rules R60 to R69, R78), and after it the encoder.
Also the host's two readings of an opcode-table word. -/

namespace Sys2Proof

/-! ## The opcode map (30_encoding.md rule R64) -/

/-- The opcode byte of a command. -/
def Opcode.byte : Opcode → Byte
  | .pack => 0x01
  | .unpack => 0x02
  | .cidx => 0x10
  | .cfromidx => 0x11
  | .packidx => 0x12
  | .unpackidx => 0x13
  | .idxat => 0x14
  | .setidxat => 0x15
  | .c2i => 0x16
  | .i2c => 0x17
  | .construct => 0x20
  | .setpx => 0x21
  | .getpx => 0x22
  | .setpxc => 0x23
  | .getpxc => 0x24
  | .getraw => 0x25
  | .getidx => 0x26
  | .getcol => 0x27
  | .freset => 0x28
  | .batch => 0x29

/-- The command of an opcode byte; `none` for the 236 reserved bytes (rule R69). -/
def Opcode.ofByte (op : Byte) : Option Opcode :=
  match op.toNat with
  | 0x01 => some .pack
  | 0x02 => some .unpack
  | 0x10 => some .cidx
  | 0x11 => some .cfromidx
  | 0x12 => some .packidx
  | 0x13 => some .unpackidx
  | 0x14 => some .idxat
  | 0x15 => some .setidxat
  | 0x16 => some .c2i
  | 0x17 => some .i2c
  | 0x20 => some .construct
  | 0x21 => some .setpx
  | 0x22 => some .getpx
  | 0x23 => some .setpxc
  | 0x24 => some .getpxc
  | 0x25 => some .getraw
  | 0x26 => some .getidx
  | 0x27 => some .getcol
  | 0x28 => some .freset
  | 0x29 => some .batch
  | _ => none

/-- The format of a command (rule R64). -/
def Opcode.format : Opcode → Format
  | .pack => .F3
  | .unpack => .FC
  | .cidx => .FC
  | .cfromidx => .F1
  | .packidx => .FS1
  | .unpackidx => .F1
  | .idxat => .F2
  | .setidxat => .F3
  | .c2i => .FS3
  | .i2c => .FS1
  | .construct => .F1
  | .setpx => .F3
  | .getpx => .F2
  | .setpxc => .FXC
  | .getpxc => .F2
  | .getraw => .F0
  | .getidx => .F0
  | .getcol => .F0
  | .freset => .F1
  | .batch => .FB

/-! ## Length of a command (30_encoding.md rule R62) -/

/-- `CmdLen`: the length of the command that starts the byte list, `none` for `NeedMore`. -/
def cmdLen (s : List Byte) : Option Nat :=
  match s with
  | [] => none
  | op :: t =>
    match Opcode.ofByte op with
    | none => some 1
    | some o =>
      match o.format with
      | .F0 => some 1
      | .F1 => some 2
      | .F2 => some 3
      | .F3 => some 4
      | .FC => some 4
      | .FXC => some 6
      | .FS1 => match t with
        | n :: _ => some (2 + n.toNat)
        | [] => none
      | .FS3 => match t with
        | n :: _ => some (2 + 3 * n.toNat)
        | [] => none
      | .FB => match t with
        | lx :: ly :: li :: _ => some (4 + lx.toNat + ly.toNat + li.toNat)
        | _ => none

/-! ## Operand assembly (30_encoding.md rule R63) -/

/-- A color from its three bytes, most significant first: `C2 ++ C1 ++ C0`. -/
def colorOfBytes (c2 c1 c0 : Byte) : Color := c2 ++ c1 ++ c0

/-- The three bytes of a color in the order they travel: bits 23:16, 15:8, 7:0. -/
def colorBytes (c : Color) : List Byte :=
  [c.extractLsb' 16 8, c.extractLsb' 8 8, c.extractLsb' 0 8]

/-- The payload of format `FS3`: colors of three bytes each; a rest of one or two bytes is no color and is left out
(the decoder passes whole colors only). -/
def colorsOfBytes : List Byte → List Color
  | c2 :: c1 :: c0 :: t => colorOfBytes c2 c1 c0 :: colorsOfBytes t
  | _ => []

/-! ## The decoder (30_encoding.md rule R78) -/

/-- What `Decode` returns. -/
inductive Decoded where
  /-- `NeedMore`: the bytes end inside a command, or there are none. -/
  | needMore
  /-- `Illegal(rest)`: the first byte is the reserved opcode `op`. -/
  | illegal (op : Byte) (rest : List Byte)
  /-- `Cmd(c, rest)`. -/
  | cmd (i : Instr) (rest : List Byte)
  deriving DecidableEq, Repr

/-- Cut `n` payload bytes off `t` and go on with payload and rest, or ask for more. -/
def takePayload (n : Nat) (t : List Byte) (k : List Byte → List Byte → Decoded) : Decoded :=
  if t.length < n then .needMore else k (t.take n) (t.drop n)

/-- `Decode(s)`: total on any byte list. -/
def decode (s : List Byte) : Decoded :=
  match s with
  | [] => .needMore
  | op :: t =>
    match Opcode.ofByte op with
    | none => .illegal op t
    | some .pack => match t with
      | r :: g :: b :: u => .cmd (.pack r g b) u
      | _ => .needMore
    | some .unpack => match t with
      | c2 :: c1 :: c0 :: u => .cmd (.unpack (colorOfBytes c2 c1 c0)) u
      | _ => .needMore
    | some .cidx => match t with
      | c2 :: c1 :: c0 :: u => .cmd (.cidx (colorOfBytes c2 c1 c0)) u
      | _ => .needMore
    | some .cfromidx => match t with
      | idx :: u => .cmd (.cfromidx idx) u
      | _ => .needMore
    | some .packidx => match t with
      | n :: u => takePayload n.toNat u fun p rest => .cmd (.packidx p) rest
      | _ => .needMore
    | some .unpackidx => match t with
      | byte :: u => .cmd (.unpackidx byte) u
      | _ => .needMore
    | some .idxat => match t with
      | byte :: pos :: u => .cmd (.idxat byte pos) u
      | _ => .needMore
    | some .setidxat => match t with
      | byte :: pos :: idx :: u => .cmd (.setidxat byte pos idx) u
      | _ => .needMore
    | some .c2i => match t with
      | n :: u => takePayload (3 * n.toNat) u fun p rest => .cmd (.c2i (colorsOfBytes p)) rest
      | _ => .needMore
    | some .i2c => match t with
      | n :: u => takePayload n.toNat u fun p rest => .cmd (.i2c p) rest
      | _ => .needMore
    | some .construct => match t with
      | size :: u => .cmd (.construct size) u
      | _ => .needMore
    | some .setpx => match t with
      | x :: y :: idx :: u => .cmd (.setpx x y idx) u
      | _ => .needMore
    | some .getpx => match t with
      | x :: y :: u => .cmd (.getpx x y) u
      | _ => .needMore
    | some .setpxc => match t with
      | x :: y :: c2 :: c1 :: c0 :: u => .cmd (.setpxc x y (colorOfBytes c2 c1 c0)) u
      | _ => .needMore
    | some .getpxc => match t with
      | x :: y :: u => .cmd (.getpxc x y) u
      | _ => .needMore
    | some .getraw => .cmd .getraw t
    | some .getidx => .cmd .getidx t
    | some .getcol => .cmd .getcol t
    | some .freset => match t with
      | fill :: u => .cmd (.freset fill) u
      | _ => .needMore
    | some .batch => match t with
      | lx :: ly :: li :: u =>
        takePayload lx.toNat u fun xs u => takePayload ly.toNat u fun ys u =>
          takePayload li.toNat u fun ids rest => .cmd (.batch xs ys ids) rest
      | _ => .needMore

/-! ## The encoder (30_encoding.md rule R61) -/

/-- A count byte: the length of the list that follows it. -/
def countByte {α : Type} (l : List α) : Byte := BitVec.ofNat 8 l.length

/-- The operand bytes of a command in the order they travel (rules R61, R64). -/
def operandBytes : Instr → List Byte
  | .pack r g b => [r, g, b]
  | .unpack c => colorBytes c
  | .cidx c => colorBytes c
  | .cfromidx idx => [idx]
  | .packidx idxs => countByte idxs :: idxs
  | .unpackidx byte => [byte]
  | .idxat byte pos => [byte, pos]
  | .setidxat byte pos idx => [byte, pos, idx]
  | .c2i cs => countByte cs :: cs.flatMap colorBytes
  | .i2c idxs => countByte idxs :: idxs
  | .construct size => [size]
  | .setpx x y idx => [x, y, idx]
  | .getpx x y => [x, y]
  | .setpxc x y c => x :: y :: colorBytes c
  | .getpxc x y => [x, y]
  | .getraw => []
  | .getidx => []
  | .getcol => []
  | .freset fill => [fill]
  | .batch xs ys ids => countByte xs :: countByte ys :: countByte ids :: (xs ++ ys ++ ids)

/-- `Encode(c)`: the opcode byte, then the operand bytes. -/
def encode (i : Instr) : List Byte := i.opcode.byte :: operandBytes i

/-! ## The host's readings of an opcode-table word -/

/-- The bytes of a table word, the first byte in bits 7:0, followed by operand bytes of zeros enough for the longest command. -/
def tableWordBytes (nbits w : Nat) : List Byte :=
  (List.range ((nbits + 7) / 8)).map (fun k => BitVec.ofNat 8 ((w % 2 ^ nbits) >>> (8 * k)))
    ++ List.replicate Config.maxCommandBytes 0

/-- The instruction the decoder reads from a table word. -/
def decodeTableWord (nbits w : Nat) : Option Instr :=
  match decode (tableWordBytes nbits w) with
  | .cmd i _ => some i
  | .illegal _ _ => none
  | .needMore => none

/-- The bytes of the one command that a table word stands for: what the decoder consumes of it. -/
def tableWordCommand (nbits w : Nat) : List Byte :=
  (tableWordBytes nbits w).take ((cmdLen (tableWordBytes nbits w)).getD 0)

end Sys2Proof
end

