-- ==== Sys2Proof/Machine/State.lean ====
section
/-! DEFINITION. The state of the colors CORE (10_state.md): the three pieces of architectural state `ACTIVE`, `SIZE`, `BUF`, and
beside them the three streams of the block's interface (30_encoding.md rule R59): what the host has still to do (CMD and RST),
the responses produced so far (RSP) and the events emitted so far (EVT). There is no register file, program counter, flag,
saved state or mode (10_state.md rules R20, R21, R25, R32; 60_exceptions.md rules R177, R180). -/

namespace Sys2Proof.Machine

/-- One action of the host, in the order it takes them (30_encoding.md rule R59, 70_reset_and_hazards.md rules R190, R204). -/
inductive HostAction where
  /-- The host sends one byte on CMD. -/
  | send (b : Byte)
  /-- The host asserts RST. -/
  | rst
  deriving DecidableEq, Repr

/-- The eight errors a command can report (60_exceptions.md rule R160). -/
inductive CmdError where
  | coordinatesOutOfBounds
  | colorNotInPalette
  | indexOutOfRange
  | positionOutOfRange
  | arrayLengthMismatch
  | tooManyIndices
  | illegalCommand
  | notActive
  deriving DecidableEq, Repr

/-- One response on RSP (30_encoding.md rule R71): status OK with its data bytes, or an error, which carries no data. -/
inductive Response where
  | ok (data : List Byte)
  | error (e : CmdError)
  deriving DecidableEq, Repr

/-- One record on EVT (60_exceptions.md rule R176). -/
inductive Event where
  | pixelChanged (x y idx : Byte)
  | batchSet (count : Byte)
  | frameReset
  deriving DecidableEq, Repr

/-- Why the machine would stop. -/
inductive Fault where
  /-- Raised by `memRead` and `memWrite` on a byte offset at or beyond `TOTALBYTES`: 00_scope.md rule R9 requires
  `addr < TOTALBYTES` of both. No command reaches it (20_memory.md rule R45: an in-bounds pixel maps inside BUF). Safe. -/
  | bufOffset (a : Nat)
  deriving DecidableEq, Repr

/-- Why an instruction would have no meaning. -/
inductive Refusal where
  /-- An arm of `exec` without a meaning; no arm raises it. Safe. -/
  | notModelled (mnemonic : String)
  deriving DecidableEq, Repr

/-- The state of the block and of its three streams. -/
structure State where
  /-- `ACTIVE`, 1 bit: a frame has been constructed (10_state.md rule R22). -/
  active : Bool
  /-- `SIZE`, 8 bits: the side length of the frame (10_state.md rule R23). -/
  size : Byte
  /-- `BUF`, the packed bytes at offsets 0 .. TOTALBYTES-1 (10_state.md rule R27), as the cells that differ from 0x00,
  offsets strictly rising: `CONSTRUCT` zero-fills, so an unlisted byte of BUF is 0x00 (42_pixelframe.md rule R130). -/
  buf : List Host.Cell
  /-- CMD and RST: the host's actions not yet consumed, oldest first, the bytes of a partly received command among them
  (30_encoding.md rules R60, R68). -/
  cmd : List HostAction
  /-- RSP: the responses produced so far, oldest first (30_encoding.md rule R74). -/
  rsp : List Response
  /-- EVT: the events emitted so far, oldest first (60_exceptions.md rule R176). -/
  evt : List Event
  deriving DecidableEq, Repr

/-- The state right after RST, with nothing yet on any stream (10_state.md rule R31, 70_reset_and_hazards.md rule R191). -/
def State.reset : State :=
  { active := false, size := 0, buf := [], cmd := [], rsp := [], evt := [] }

end Sys2Proof.Machine
end

