-- ==== Sys2Proof/Machine/Operands.lean ====
section
/-! DEFINITION. The values the commands compute: the color codec, the palette, the 2-bit fields of a packed byte, the derived
sizes and the address mapper (40_colorcodec.md, 41_palette.md, 10_state.md rules R24, R26, 20_memory.md rules R41 to R45), and
the byte forms of status codes and event records (60_exceptions.md rules R160, R176). All pure; arithmetic at the widths of
20_memory.md rule R58. -/

namespace Sys2Proof.Machine

/-! ## ColorCodec (40_colorcodec.md) -/

/-- `Pack` (rule R100). -/
def pack (r g b : Byte) : Color :=
  (r.setWidth 24 <<< 16) ||| (g.setWidth 24 <<< 8) ||| b.setWidth 24

/-- `Unpack` (rule R101): red, green, blue. -/
def unpack (c : Color) : Byte × Byte × Byte :=
  (((c >>> 16) &&& 0xFF).setWidth 8, ((c >>> 8) &&& 0xFF).setWidth 8, (c &&& 0xFF).setWidth 8)

/-! ## Palette (41_palette.md) -/

/-- `PAL`: 0 White, 1 Black, 2 Purple, 3 Blue (10_state.md rule R26). -/
def PAL (i : Index) : Color :=
  if i = 0 then 0xFFFFFF else if i = 1 then 0x000000 else if i = 2 then 0x8C1C84 else 0x45A2F8

/-- `ColorIndex` (rule R110): the first index whose color equals `c` in all 24 bits. -/
def colorIndex (c : Color) : Except CmdError Index :=
  match [(0 : Index), 1, 2, 3].find? (fun i => PAL i = c) with
  | some i => .ok i
  | none => .error .colorNotInPalette

/-- `v >= 4`, the unsigned comparison that every index and position operand is put to (60_exceptions.md rule R161). -/
def atLeast4 (v : Byte) : Bool := decide (4 ≤ v.toNat)

/-- A palette index or sub-position operand reduced to its low two bits `v[1:0]`, once it is known to be below 4. -/
def low2 (v : Byte) : Index := v.extractLsb' 0 2

/-- An index as a response byte: bits 1:0, bits 7:2 zero (30_encoding.md rule R72). -/
def indexByte (i : Index) : Byte := i.setWidth 8

/-- `ColorFromIndex` (rule R111). -/
def colorFromIndex (idx : Byte) : Except CmdError Color :=
  if atLeast4 idx then .error .indexOutOfRange else .ok (PAL (low2 idx))

/-- `IndexAt` (rule R112): field `k` of a packed byte, bits `2k+1 : 2k` (20_memory.md rule R41). -/
def indexAt (b : Byte) (k : Index) : Index := (b >>> (2 * k.toNat)).extractLsb' 0 2

/-- `SetIndexAt` (rule R113): the byte with field `k` replaced by `v`. -/
def setIndexAt (b : Byte) (k v : Index) : Byte :=
  (b &&& ~~~((0b11 : Byte) <<< (2 * k.toNat))) ||| (v.setWidth 8 <<< (2 * k.toNat))

/-- The four fields of a packed byte in position order (rule R117). -/
def lanes (b : Byte) : List Index := [indexAt b 0, indexAt b 1, indexAt b 2, indexAt b 3]

/-- The loop of rule R116: OR the elements into `b`, the first at field `k`, each next one a field higher. -/
def packLanes (k : Nat) (b : Byte) : List Byte → Byte
  | [] => b
  | idx :: t => packLanes (k + 1) (b ||| (idx <<< (2 * k))) t

/-- `packIndices` (rule R116): the count is checked before any element. -/
def packIndices (idxs : List Byte) : Except CmdError Byte :=
  if idxs.length > 4 then .error .tooManyIndices
  else if idxs.any atLeast4 then .error .indexOutOfRange
  else .ok (packLanes 0 0 idxs)

/-- An element-wise map that stops at the first element that raises (rules R120, R121). -/
def mapUntilError {α β : Type} (f : α → Except CmdError β) : List α → Except CmdError (List β)
  | [] => .ok []
  | a :: t =>
    match f a with
    | .error e => .error e
    | .ok b =>
      match mapUntilError f t with
      | .error e => .error e
      | .ok bs => .ok (b :: bs)

/-! ## Sizes and the address mapper (10_state.md rule R24, 20_memory.md rules R44, R45) -/

/-- `TOTALPIXELS`, 16 bits (10_state.md rule R24). -/
def totalPixels (size : Byte) : BitVec 16 := size.setWidth 16 * size.setWidth 16

/-- `TOTALBYTES`, 14 bits: `(TOTALPIXELS + 3) div 4` (10_state.md rule R24). -/
def totalBytes (size : Byte) : BitVec 14 := ((totalPixels size + 3) / 4).setWidth 14

/-- `p = y*SIZE + x`, the flat position, 16 bits (20_memory.md rules R42, R45). -/
def flatPosition (size x y : Byte) : BitVec 16 := y.setWidth 16 * size.setWidth 16 + x.setWidth 16

/-- `Map` (20_memory.md rule R45): byte offset `p[15:2]` and field `p[1:0]`. -/
def pixelMap (size x y : Byte) : BitVec 14 × Index :=
  let p := flatPosition size x y
  (p.extractLsb' 2 14, p.extractLsb' 0 2)

/-- The template byte of `FRESET`: the fill index in all four fields (42_pixelframe.md rule R146). -/
def fillByte (f : Index) : Byte := f ++ f ++ f ++ f

/-! ## Bytes on RSP and EVT (60_exceptions.md rules R160, R176) -/

/-- The status code of an error. -/
def CmdError.code : CmdError → Byte
  | .coordinatesOutOfBounds => 0x01
  | .colorNotInPalette => 0x02
  | .indexOutOfRange => 0x03
  | .positionOutOfRange => 0x04
  | .arrayLengthMismatch => 0x05
  | .tooManyIndices => 0x06
  | .illegalCommand => 0x80
  | .notActive => 0x81

/-- `ST`: the status byte of a response (rule R160). -/
def Response.status : Response → Byte
  | .ok _ => 0x00
  | .error e => e.code

/-- `DATA`: the data bytes of a response, none after an error (30_encoding.md rule R71). -/
def Response.data : Response → List Byte
  | .ok d => d
  | .error _ => []

/-- A response as it travels on RSP: the status byte, then the data (30_encoding.md rule R71). -/
def Response.bytes (r : Response) : List Byte := r.status :: r.data

/-- A record as it travels on EVT: the kind byte, then its fields (rule R176). -/
def Event.bytes : Event → List Byte
  | .pixelChanged x y idx => [0x01, x, y, idx]
  | .batchSet count => [0x02, count]
  | .frameReset => [0x03]

end Sys2Proof.Machine
end

