-- ==== Sys2Proof/Machine/Flags.lean ====
section
/-! DEFINITION. The conditions that decide the status of a command (60_exceptions.md rules R161, R170). The block has no status
flags or condition codes (10_state.md rule R25): the outcome of a command is in its response and nowhere else. -/

namespace Sys2Proof.Machine

/-- `InBounds` (20_memory.md rule R44): unsigned 8-bit comparisons against the one side length. -/
def inBounds (size x y : Byte) : Bool := decide (x < size) && decide (y < size)

/-- The checks of one pixel write, bounds before index (42_pixelframe.md rules R134, R148). -/
def pixelWriteError (size x y idx : Byte) : Option CmdError :=
  if !inBounds size x y then some .coordinatesOutOfBounds
  else if atLeast4 idx then some .indexOutOfRange
  else none

/-- `lx = ly` and `ly = li` (42_pixelframe.md rule R148). -/
def sameLengths (xs ys ids : List Byte) : Bool :=
  decide (xs.length = ys.length) && decide (ys.length = ids.length)

end Sys2Proof.Machine
end

