-- ==== Sys2Proof/Machine/Ops.lean ====
section
/-! DEFINITION. The named operations over BUF and the streams: reading and writing one byte, the pixel primitives, filling and
reading the whole of BUF, responding, raising an error (the block's only exception: 60_exceptions.md rule R171), emitting an
event, and RST. -/

namespace Sys2Proof.Machine

/-! ## BUF as sparse cells: the canonical form -/

/-- The canonical form from offset `lo` on: offsets rise strictly and no cell holds 0x00, which an unlisted byte reads as. -/
def Memory.wfFrom (lo : Nat) : List Host.Cell → Bool
  | [] => true
  | (k, b) :: t => decide (lo ≤ k) && decide (b ≠ 0) && Memory.wfFrom (k + 1) t

/-- The canonical form of BUF. -/
abbrev Memory.wf (m : List Host.Cell) : Bool := Memory.wfFrom 0 m

/-- The byte at offset `a`; an unlisted byte is 0x00 (42_pixelframe.md rule R130). -/
def Memory.read (m : List Host.Cell) (a : Nat) : Byte :=
  match m with
  | [] => 0
  | (k, b) :: t => if k < a then Memory.read t a else if k = a then b else 0

/-- Put `v` before the cells `t`, unless it is the byte an unlisted offset reads as. -/
def Memory.cons (a : Nat) (v : Byte) (t : List Host.Cell) : List Host.Cell :=
  if v = 0 then t else (a, v) :: t

/-- Replace the byte at offset `a` by `v`; writing 0x00 removes the cell. -/
def Memory.write (m : List Host.Cell) (a : Nat) (v : Byte) : List Host.Cell :=
  match m with
  | [] => Memory.cons a v []
  | (k, b) :: t =>
    if k < a then (k, b) :: Memory.write t a v
    else if k = a then Memory.cons a v t
    else Memory.cons a v ((k, b) :: t)

/-- Every byte at offsets 0 .. n-1 is `v` (42_pixelframe.md rules R130, R146). -/
def Memory.fill (n : Nat) (v : Byte) : List Host.Cell :=
  if v = 0 then [] else (List.range n).map (fun a => (a, v))

/-- The `n` bytes at offsets `a`, `a+1`, ..., in one pass over the cells; `Laws/Memory.lean` proves that the list is
`Memory.read` at each offset. -/
def Memory.bytes (m : List Host.Cell) (a n : Nat) : List Byte :=
  match m with
  | [] => List.replicate n 0
  | (k, b) :: t =>
    if k < a then Memory.bytes t a n
    else if a + n ≤ k then List.replicate n 0
    else List.replicate (k - a) 0 ++ b :: Memory.bytes t (k + 1) (n - (k - a) - 1)

/-! ## Reading and writing BUF (00_scope.md rule R9) -/

/-- `MemRead(addr, 1)`, which requires `addr < TOTALBYTES`. -/
def memRead (a : BitVec 14) (s : State) : Except Fault Byte :=
  if a < totalBytes s.size then .ok (Memory.read s.buf a.toNat) else .error (.bufOffset a.toNat)

/-- `MemWrite(addr, 1, v)`, which requires `addr < TOTALBYTES`. -/
def memWrite (a : BitVec 14) (v : Byte) (s : State) : Except Fault State :=
  if a < totalBytes s.size then .ok { s with buf := Memory.write s.buf a.toNat v } else .error (.bufOffset a.toNat)

/-- `PixRead` (20_memory.md rule R46): one byte read, no other effect. -/
def pixRead (a : BitVec 14) (k : Index) (s : State) : Except Fault Index :=
  match memRead a s with
  | .error f => .error f
  | .ok b => .ok (indexAt b k)

/-- `PixWrite` (20_memory.md rule R47): a read-modify-write of exactly one byte. -/
def pixWrite (a : BitVec 14) (k v : Index) (s : State) : Except Fault State :=
  match memRead a s with
  | .error f => .error f
  | .ok b => memWrite a (setIndexAt b k v) s

/-- `BUF[0], ..., BUF[TOTALBYTES-1]` (42_pixelframe.md rule R142). -/
def bufBytes (s : State) : List Byte := Memory.bytes s.buf 0 (totalBytes s.size).toNat

/-- The indices of pixels 0 .. TOTALPIXELS-1: the fields of the bytes of BUF in order, without the padding fields
(42_pixelframe.md rule R144). -/
def allIndices (s : State) : List Index := ((bufBytes s).flatMap lanes).take (totalPixels s.size).toNat

/-! ## Ending a command (00_scope.md rule R9, 60_exceptions.md rule R171) -/

/-- Append one response to RSP. -/
def State.reply (r : Response) (s : State) : State := { s with rsp := s.rsp ++ [r] }

/-- `respond(d0, d1, ...)`: the command ends with status OK and these data bytes. -/
def respond (data : List Byte) (s : State) : Host.Outcome State Fault Refusal := .next (s.reply (.ok data))

/-- `raise <Error>`, the entry of the block's only exception (60_exceptions.md rule R171): the command ends with the error's
status and no data; `ACTIVE`, `SIZE` and BUF stay as they are at that moment; no event; nothing is saved and control goes nowhere.
There is no return to model: the next command executes normally (rule R172). -/
def raise (e : CmdError) (s : State) : Host.Outcome State Fault Refusal := .next (s.reply (.error e))

/-- `emit <Event>(...)`: append one record to EVT, or do nothing when `P_EVENTS = 0` (60_exceptions.md rule R176). -/
def State.emit (p : Params) (e : Event) (s : State) : State :=
  if p.events then { s with evt := s.evt ++ [e] } else s

/-- End a command that touches no frame state with the result of its computation. -/
def answer (r : Except CmdError (List Byte)) (s : State) : Host.Outcome State Fault Refusal :=
  match r with
  | .error e => raise e s
  | .ok data => respond data s

/-- Go on with what a BUF access gave, or stop with its fault. -/
def orFault {α : Type} (r : Except Fault α) (k : α → Host.Outcome State Fault Refusal) :
    Host.Outcome State Fault Refusal :=
  match r with
  | .error f => .fault f
  | .ok a => k a

/-- `RequireActive` (42_pixelframe.md rule R132): before every check of an operand. -/
def requireActive (s : State) (k : Host.Outcome State Fault Refusal) : Host.Outcome State Fault Refusal :=
  if s.active then k else raise .notActive s

/-! ## RST (70_reset_and_hazards.md rule R190) -/

/-- The block after RST: `ACTIVE = 0`, `SIZE = 0`, BUF of length 0; no response and no event, and what was already produced
stays with the host and the observer (10_state.md rule R31). -/
def State.assertRst (s : State) : State := { s with active := false, size := 0, buf := [] }

end Sys2Proof.Machine
end

