-- ==== Sys2Proof/Machine/ColorCodec.lean ====
section
/-! DEFINITION. The ColorCodec commands (40_colorcodec.md): pure, legal in either lifecycle state, never an error. -/

namespace Sys2Proof.Machine

/-- `PACK r, g, b` (rule R100). -/
def execPack (r g b : Byte) (s : State) : Host.Outcome State Fault Refusal :=
  respond (colorBytes (pack r g b)) s

/-- `UNPACK c` (rule R101). -/
def execUnpack (c : Color) (s : State) : Host.Outcome State Fault Refusal :=
  let (red, green, blue) := unpack c
  respond [red, green, blue] s

end Sys2Proof.Machine
end

