-- ==== Sys2Proof/Machine/Palette.lean ====
section
/-! DEFINITION. The Palette commands (41_palette.md): pure functions of their operands and of PAL, legal in either lifecycle
state. -/

namespace Sys2Proof.Machine

/-- `CIDX c` (rule R114). -/
def execCidx (c : Color) (s : State) : Host.Outcome State Fault Refusal :=
  answer ((colorIndex c).map fun i => [indexByte i]) s

/-- `CFROMIDX idx` (rule R115). -/
def execCfromidx (idx : Byte) (s : State) : Host.Outcome State Fault Refusal :=
  answer ((colorFromIndex idx).map colorBytes) s

/-- `PACKIDX [idx0, ...]` (rule R116): `TooManyIndices` before `IndexOutOfRange`. -/
def execPackidx (idxs : List Byte) (s : State) : Host.Outcome State Fault Refusal :=
  answer ((packIndices idxs).map fun b => [b]) s

/-- `UNPACKIDX byte` (rule R117): always four results. -/
def execUnpackidx (byte : Byte) (s : State) : Host.Outcome State Fault Refusal :=
  respond ((lanes byte).map indexByte) s

/-- `IDXAT byte, pos` (rule R118). -/
def execIdxat (byte pos : Byte) (s : State) : Host.Outcome State Fault Refusal :=
  if atLeast4 pos then raise .positionOutOfRange s
  else respond [indexByte (indexAt byte (low2 pos))] s

/-- `SETIDXAT byte, pos, idx` (rule R119): position before index. -/
def execSetidxat (byte pos idx : Byte) (s : State) : Host.Outcome State Fault Refusal :=
  if atLeast4 pos then raise .positionOutOfRange s
  else if atLeast4 idx then raise .indexOutOfRange s
  else respond [setIndexAt byte (low2 pos) (low2 idx)] s

/-- `C2I [c0, ...]` (rule R120): the first color not in the palette ends it, with no partial results. -/
def execC2i (cs : List Color) (s : State) : Host.Outcome State Fault Refusal :=
  answer ((mapUntilError colorIndex cs).map fun out => out.map indexByte) s

/-- `I2C [idx0, ...]` (rule R121): no limit of 4 on the count. -/
def execI2c (idxs : List Byte) (s : State) : Host.Outcome State Fault Refusal :=
  answer ((mapUntilError colorFromIndex idxs).map fun out => out.flatMap colorBytes) s

end Sys2Proof.Machine
end

