-- ==== Sys2Proof/Machine/PixelFrame.lean ====
section
/-! DEFINITION. The PixelFrame commands (42_pixelframe.md). The four that emit an event or depend on `P_BATCH_ATOMIC` are written
over the spec's two parameters; the meanings take the values of this hardware (00_scope.md rule R7). -/

namespace Sys2Proof.Machine

/-! ## Construction -/

/-- `CONSTRUCT size` (rules R130, R131): legal in either lifecycle state; nothing of an old BUF survives. -/
def execConstruct (size : Byte) (s : State) : Host.Outcome State Fault Refusal :=
  respond [] { s with active := true, size := size, buf := Memory.fill (totalBytes size).toNat 0 }

/-! ## Single-pixel commands -/

/-- The write and the event of `setPixel`, after the checks (rules R134, R138). -/
def writePixel (p : Params) (x y : Byte) (i : Index) (s : State) : Host.Outcome State Fault Refusal :=
  let (a, k) := pixelMap s.size x y
  orFault (pixWrite a k i s) fun t => respond [] (t.emit p (.pixelChanged x y (indexByte i)))

/-- `SETPX` over the parameters (rule R134). The event carries `idx`, which is below 4 here, so its two low bits are all of it. -/
def setpxWith (p : Params) (x y idx : Byte) (s : State) : Host.Outcome State Fault Refusal :=
  requireActive s <|
    match pixelWriteError s.size x y idx with
    | some e => raise e s
    | none => writePixel p x y (low2 idx) s

/-- `SETPX x, y, idx` (rule R134). -/
def execSetpx (x y idx : Byte) (s : State) : Host.Outcome State Fault Refusal :=
  setpxWith Config.params x y idx s

/-- The checks and the read shared by `GETPX` and `GETPXC` (rules R136, R140): `k` says what of the index is returned. -/
def readPixel (x y : Byte) (s : State) (k : Index → List Byte) : Host.Outcome State Fault Refusal :=
  requireActive s <|
    if !inBounds s.size x y then raise .coordinatesOutOfBounds s
    else
      let (a, j) := pixelMap s.size x y
      orFault (pixRead a j s) fun i => respond (k i) s

/-- `GETPX x, y` (rule R136). -/
def execGetpx (x y : Byte) (s : State) : Host.Outcome State Fault Refusal :=
  readPixel x y s fun i => [indexByte i]

/-- `SETPXC` over the parameters (rule R138): the color is resolved before the coordinates are checked. -/
def setpxcWith (p : Params) (x y : Byte) (c : Color) (s : State) : Host.Outcome State Fault Refusal :=
  requireActive s <|
    match colorIndex c with
    | .error e => raise e s
    | .ok i =>
      if !inBounds s.size x y then raise .coordinatesOutOfBounds s
      else writePixel p x y i s

/-- `SETPXC x, y, c` (rule R138). -/
def execSetpxc (x y : Byte) (c : Color) (s : State) : Host.Outcome State Fault Refusal :=
  setpxcWith Config.params x y c s

/-- `GETPXC x, y` (rule R140). -/
def execGetpxc (x y : Byte) (s : State) : Host.Outcome State Fault Refusal :=
  readPixel x y s fun i => colorBytes (PAL i)

/-! ## Bulk reads -/

/-- `GETRAW` (rule R142): the response is a copy (rule R143). -/
def execGetraw (s : State) : Host.Outcome State Fault Refusal :=
  requireActive s <| respond (bufBytes s) s

/-- `GETIDX` (rule R144). -/
def execGetidx (s : State) : Host.Outcome State Fault Refusal :=
  requireActive s <| respond ((allIndices s).map indexByte) s

/-- `GETCOL` (rule R145). -/
def execGetcol (s : State) : Host.Outcome State Fault Refusal :=
  requireActive s <| respond ((allIndices s).flatMap fun i => colorBytes (PAL i)) s

/-! ## Frame reset -/

/-- `FRESET` over the parameters (rule R146): whole bytes, so the padding fields are filled too. -/
def fresetWith (p : Params) (fill : Byte) (s : State) : Host.Outcome State Fault Refusal :=
  requireActive s <|
    if atLeast4 fill then raise .indexOutOfRange s
    else
      respond [] (State.emit p .frameReset
        { s with buf := Memory.fill (totalBytes s.size).toNat (fillByte (low2 fill)) })

/-- `FRESET fill` (rule R146). -/
def execFreset (fill : Byte) (s : State) : Host.Outcome State Fault Refusal :=
  fresetWith Config.params fill s

/-! ## Batch write -/

/-- One element of a batch: `(x, y, index)`. -/
abbrev Triple := Byte × Byte × Byte

/-- The elements of a batch whose three sequences have equal lengths. -/
def triples (xs ys ids : List Byte) : List Triple := xs.zip (ys.zip ids)

/-- The loop of rule R148: check and write element after element; at the first failing element stop with its error, the
earlier writes staying in BUF. No event here (rule R150). -/
def batchLoop (l : List Triple) (s : State) : Except Fault (State × Option CmdError) :=
  match l with
  | [] => .ok (s, none)
  | (x, y, idx) :: t =>
    match pixelWriteError s.size x y idx with
    | some e => .ok (s, some e)
    | none =>
      let (a, j) := pixelMap s.size x y
      match pixWrite a j (low2 idx) s with
      | .error f => .error f
      | .ok s' => batchLoop t s'

/-- The error of the first failing element, if any: the checks alone, before any write (rule R149). -/
def batchCheck (size : Byte) (l : List Triple) : Option CmdError :=
  l.findSome? fun e => pixelWriteError size e.1 e.2.1 e.2.2

/-- The end of a batch: the error of the element that failed, or the one `BatchSet` event and OK (rules R148, R150). -/
def endBatch (p : Params) (count : Byte) (r : State × Option CmdError) : Host.Outcome State Fault Refusal :=
  match r.2 with
  | some e => raise e r.1
  | none => respond [] (r.1.emit p (.batchSet count))

/-- `BATCH` over the parameters: rule R148 for `P_BATCH_ATOMIC = 0`, rule R149 for `P_BATCH_ATOMIC = 1`. -/
def batchWith (p : Params) (xs ys ids : List Byte) (s : State) : Host.Outcome State Fault Refusal :=
  requireActive s <|
    if !sameLengths xs ys ids then raise .arrayLengthMismatch s
    else if p.batchAtomic then
      match batchCheck s.size (triples xs ys ids) with
      | some e => raise e s
      | none => orFault (batchLoop (triples xs ys ids) s) (endBatch p (countByte xs))
    else orFault (batchLoop (triples xs ys ids) s) (endBatch p (countByte xs))

/-- `BATCH xs, ys, is` (rule R148). -/
def execBatch (xs ys ids : List Byte) (s : State) : Host.Outcome State Fault Refusal :=
  batchWith Config.params xs ys ids s

end Sys2Proof.Machine
end

