-- ==== Sys2Proof/Machine/Dispatch.lean ====
section
/-! DEFINITION. One arm per command (30_encoding.md rule R64). -/

namespace Sys2Proof.Machine

def exec (i : Instr) (s : State) : Host.Outcome State Fault Refusal :=
  match i with
  -- ColorCodec
  | .pack r g b => Sys2Proof.Machine.execPack r g b s
  | .unpack c => Sys2Proof.Machine.execUnpack c s
  -- Palette
  | .cidx c => Sys2Proof.Machine.execCidx c s
  | .cfromidx idx => Sys2Proof.Machine.execCfromidx idx s
  | .packidx idxs => Sys2Proof.Machine.execPackidx idxs s
  | .unpackidx byte => Sys2Proof.Machine.execUnpackidx byte s
  | .idxat byte pos => Sys2Proof.Machine.execIdxat byte pos s
  | .setidxat byte pos idx => Sys2Proof.Machine.execSetidxat byte pos idx s
  | .c2i cs => Sys2Proof.Machine.execC2i cs s
  | .i2c idxs => Sys2Proof.Machine.execI2c idxs s
  -- PixelFrame
  | .construct size => Sys2Proof.Machine.execConstruct size s
  | .setpx x y idx => Sys2Proof.Machine.execSetpx x y idx s
  | .getpx x y => Sys2Proof.Machine.execGetpx x y s
  | .setpxc x y c => Sys2Proof.Machine.execSetpxc x y c s
  | .getpxc x y => Sys2Proof.Machine.execGetpxc x y s
  | .getraw => Sys2Proof.Machine.execGetraw s
  | .getidx => Sys2Proof.Machine.execGetidx s
  | .getcol => Sys2Proof.Machine.execGetcol s
  | .freset fill => Sys2Proof.Machine.execFreset fill s
  | .batch xs ys ids => Sys2Proof.Machine.execBatch xs ys ids s

end Sys2Proof.Machine
end

