-- ==== Sys2Proof/Machine/Fetch.lean ====
section
/-! DEFINITION. What the block takes next from CMD and RST (30_encoding.md rules R60, R62, R68, R69, 70_reset_and_hazards.md
rules R190, R192), and the placing of a command at the head of CMD. -/

namespace Sys2Proof.Machine

/-- The bytes on CMD before the next RST. -/
def bytesBeforeRst : List HostAction → List Byte
  | .send b :: t => b :: bytesBeforeRst t
  | .rst :: _ => []
  | [] => []

/-- The host's actions from the next RST on. -/
def fromRst : List HostAction → List HostAction
  | .send _ :: t => fromRst t
  | .rst :: t => .rst :: t
  | [] => []

/-- What the block does next. -/
inductive Fetched where
  /-- Nothing to do: CMD is empty or ends inside a command (30_encoding.md rule R68). -/
  | wait
  /-- RST is asserted: the bytes of a partly received command are dropped. -/
  | rst (rest : List HostAction)
  /-- A reserved opcode byte. -/
  | illegal (rest : List HostAction)
  /-- A complete command. -/
  | run (i : Instr) (rest : List HostAction)
  deriving DecidableEq, Repr

/-- RST, or nothing more to do, once the bytes before it hold no complete command. -/
def fetchRst : List HostAction → Fetched
  | .rst :: t => .rst t
  | .send _ :: _ => .wait
  | [] => .wait

/-- Decode the bytes that stand before the next RST: a complete command runs before a later RST is taken, an incomplete one
is dropped by it (70_reset_and_hazards.md rule R192). -/
def fetch (q : List HostAction) : Fetched :=
  match decode (bytesBeforeRst q) with
  | .cmd i rest => .run i (rest.map .send ++ fromRst q)
  | .illegal _ rest => .illegal (rest.map .send ++ fromRst q)
  | .needMore => fetchRst (fromRst q)

/-- A reserved opcode (30_encoding.md rule R69): one byte consumed, status `IllegalCommand`, nothing else. -/
def illegalCommand (s : State) : Host.Outcome State Fault Refusal := raise .illegalCommand s

/-- Put bytes at the head of CMD. -/
def State.sendFirst (bs : List Byte) (s : State) : State := { s with cmd := bs.map .send ++ s.cmd }

end Sys2Proof.Machine
end

