-- ==== Sys2Proof/Machine/Step.lean ====
section
/-! DEFINITION. One step of the block: one complete command, one reserved opcode, one RST, or waiting
(20_memory.md rule R50, 30_encoding.md rules R68, R69, 70_reset_and_hazards.md rule R190). -/

namespace Sys2Proof.Machine

/-- One step. A command's bytes leave CMD before it executes; while no complete command is there the block waits and changes
nothing (30_encoding.md rule R68). -/
def step (s : State) : Host.Outcome State Fault Refusal :=
  match fetch s.cmd with
  | .wait => .next s
  | .rst rest => .next (State.assertRst { s with cmd := rest })
  | .illegal rest => illegalCommand { s with cmd := rest }
  | .run i rest => exec i { s with cmd := rest }

/-- `s` with the command of an opcode-table word at the head of CMD, so that the very next step runs it. -/
def State.withFetchWord (s : State) (nbits w : Nat) : State := s.sendFirst (tableWordCommand nbits w)

end Sys2Proof.Machine
end

