-- ==== Sys2Proof/Machine/Assembler.lean ====
section
/-! DEFINITION. The text form of commands (30_encoding.md rule R76): from the characters of a line to the host's actions. The
machine does not depend on this file. -/

namespace Sys2Proof.Machine

/-- `operand := number | list`. -/
inductive AsmOperand where
  | num (n : Nat)
  | list (ns : List Nat)
  deriving DecidableEq, Repr

/-- `line := [ command | directive ]`, the comment already dropped. -/
inductive AsmLine where
  | blank
  | command (op : Opcode) (operands : List AsmOperand)
  | rst
  deriving DecidableEq, Repr

/-! ## From a parsed line to the host's actions -/

/-- A number that fits a one-byte operand; anything else is an assembly error. -/
def asmByte (n : Nat) : Option Byte := if n < 2 ^ 8 then some (BitVec.ofNat 8 n) else none

/-- A number that fits a color; anything else is an assembly error. -/
def asmColor (n : Nat) : Option Color := if n < 2 ^ 24 then some (BitVec.ofNat 24 n) else none

/-- The elements of a list operand, each assembled by `f`. -/
def asmEach {α : Type} (f : Nat → Option α) : List Nat → Option (List α)
  | [] => some []
  | n :: t =>
    match f n, asmEach f t with
    | some a, some as => some (a :: as)
    | _, _ => none

/-- The command a mnemonic with its operands stands for, before the check of the list lengths. -/
def asmInstr (op : Opcode) (operands : List AsmOperand) : Option Instr :=
  match op, operands with
  | .pack, [.num r, .num g, .num b] => do return .pack (← asmByte r) (← asmByte g) (← asmByte b)
  | .unpack, [.num c] => do return .unpack (← asmColor c)
  | .cidx, [.num c] => do return .cidx (← asmColor c)
  | .cfromidx, [.num i] => do return .cfromidx (← asmByte i)
  | .packidx, [.list l] => do return .packidx (← asmEach asmByte l)
  | .unpackidx, [.num b] => do return .unpackidx (← asmByte b)
  | .idxat, [.num b, .num p] => do return .idxat (← asmByte b) (← asmByte p)
  | .setidxat, [.num b, .num p, .num i] => do return .setidxat (← asmByte b) (← asmByte p) (← asmByte i)
  | .c2i, [.list l] => do return .c2i (← asmEach asmColor l)
  | .i2c, [.list l] => do return .i2c (← asmEach asmByte l)
  | .construct, [.num n] => do return .construct (← asmByte n)
  | .setpx, [.num x, .num y, .num i] => do return .setpx (← asmByte x) (← asmByte y) (← asmByte i)
  | .getpx, [.num x, .num y] => do return .getpx (← asmByte x) (← asmByte y)
  | .setpxc, [.num x, .num y, .num c] => do return .setpxc (← asmByte x) (← asmByte y) (← asmColor c)
  | .getpxc, [.num x, .num y] => do return .getpxc (← asmByte x) (← asmByte y)
  | .getraw, [] => some .getraw
  | .getidx, [] => some .getidx
  | .getcol, [] => some .getcol
  | .freset, [.num f] => do return .freset (← asmByte f)
  | .batch, [.list xs, .list ys, .list is] =>
    do return .batch (← asmEach asmByte xs) (← asmEach asmByte ys) (← asmEach asmByte is)
  | _, _ => none

/-- The host's actions for a parsed line: the bytes of its command, or the assertion of RST, which assembles to no bytes.
`none` is an assembly error: a number that does not fit, a list longer than 255, or operands of another shape. -/
def assemble : AsmLine → Option (List HostAction)
  | .blank => some []
  | .rst => some [.rst]
  | .command op operands =>
    match asmInstr op operands with
    | none => none
    | some i => if i.wellFormed then some ((encode i).map .send) else none

/-- The text operands of a command, in the order of rule R64: a color as one number, a count never written. -/
def asmOperandsOf : Instr → List AsmOperand
  | .pack r g b => [.num r.toNat, .num g.toNat, .num b.toNat]
  | .unpack c => [.num c.toNat]
  | .cidx c => [.num c.toNat]
  | .cfromidx idx => [.num idx.toNat]
  | .packidx idxs => [.list (idxs.map BitVec.toNat)]
  | .unpackidx byte => [.num byte.toNat]
  | .idxat byte pos => [.num byte.toNat, .num pos.toNat]
  | .setidxat byte pos idx => [.num byte.toNat, .num pos.toNat, .num idx.toNat]
  | .c2i cs => [.list (cs.map BitVec.toNat)]
  | .i2c idxs => [.list (idxs.map BitVec.toNat)]
  | .construct size => [.num size.toNat]
  | .setpx x y idx => [.num x.toNat, .num y.toNat, .num idx.toNat]
  | .getpx x y => [.num x.toNat, .num y.toNat]
  | .setpxc x y c => [.num x.toNat, .num y.toNat, .num c.toNat]
  | .getpxc x y => [.num x.toNat, .num y.toNat]
  | .getraw => []
  | .getidx => []
  | .getcol => []
  | .freset fill => [.num fill.toNat]
  | .batch xs ys ids => [.list (xs.map BitVec.toNat), .list (ys.map BitVec.toNat), .list (ids.map BitVec.toNat)]

/-! ## From characters to a parsed line -/

/-- The mnemonic of a command, upper case (rule R64). -/
def mnemonicText : Opcode → String
  | .pack => "PACK"
  | .unpack => "UNPACK"
  | .cidx => "CIDX"
  | .cfromidx => "CFROMIDX"
  | .packidx => "PACKIDX"
  | .unpackidx => "UNPACKIDX"
  | .idxat => "IDXAT"
  | .setidxat => "SETIDXAT"
  | .c2i => "C2I"
  | .i2c => "I2C"
  | .construct => "CONSTRUCT"
  | .setpx => "SETPX"
  | .getpx => "GETPX"
  | .setpxc => "SETPXC"
  | .getpxc => "GETPXC"
  | .getraw => "GETRAW"
  | .getidx => "GETIDX"
  | .getcol => "GETCOL"
  | .freset => "FRESET"
  | .batch => "BATCH"

/-- All commands in the order of rule R64. -/
def allOpcodes : List Opcode :=
  [.pack, .unpack, .cidx, .cfromidx, .packidx, .unpackidx, .idxat, .setidxat, .c2i, .i2c,
   .construct, .setpx, .getpx, .setpxc, .getpxc, .getraw, .getidx, .getcol, .freset, .batch]

/-- The tokens of a line. -/
inductive AsmToken where
  | word (w : List Char)
  | lbracket
  | rbracket
  | comma
  deriving DecidableEq, Repr

/-- Close the word being read, if there is one. -/
def flushWord (w : List Char) (rest : List AsmToken) : List AsmToken :=
  if w.isEmpty then rest else .word w.reverse :: rest

/-- The characters of rule R76 that are a token by themselves. -/
def punctuation : Char → Option AsmToken
  | '[' => some .lbracket
  | ']' => some .rbracket
  | ',' => some .comma
  | _ => none

/-- Cut a line into tokens; `w` is the word being read, last character first. A semicolon starts the comment, which is
dropped; spaces and tabs separate words. -/
def tokens (w : List Char) : List Char → List AsmToken
  | [] => flushWord w []
  | c :: t =>
    if c = ';' then flushWord w []
    else if c ∈ [' ', '\t'] then flushWord w (tokens [] t)
    else
      match punctuation c with
      | some p => flushWord w (p :: tokens [] t)
      | none => tokens (c :: w) t

/-- The digits of a base up to 16 in order of value, each in its two spellings. -/
def numerals (base : Nat) : List (Char × Char) :=
  ("0123456789abcdef".toList.zip "0123456789ABCDEF".toList).take base

/-- The value of a digit of a base: its place among the base's digits. -/
def digitOf (base : Nat) (c : Char) : Option Nat :=
  (numerals base).findIdx? fun p => c = p.1 || c = p.2

/-- The number a nonempty word of digits of a base stands for, most significant digit first. -/
def numeral (base : Nat) (w : List Char) : Option Nat :=
  if w.isEmpty then none else w.foldlM (fun n c => (digitOf base c).map (base * n + ·)) 0

/-- `number := decimal | '0x' hex | '0b' binary`. -/
def asmNumber : List Char → Option Nat
  | '0' :: 'x' :: t => numeral 16 t
  | '0' :: 'b' :: t => numeral 2 t
  | w => numeral 10 w

/-- The numbers of a list, after its opening bracket and a number are expected: `number { ',' number } ']'`. -/
def listTail (acc : List Nat) : List AsmToken → Option (List Nat × List AsmToken)
  | .word w :: .comma :: t =>
    match asmNumber w with
    | some n => listTail (acc ++ [n]) t
    | none => none
  | .word w :: .rbracket :: t =>
    match asmNumber w with
    | some n => some (acc ++ [n], t)
    | none => none
  | _ => none

/-- One operand and what follows it. -/
def asmOperand : List AsmToken → Option (AsmOperand × List AsmToken)
  | .lbracket :: .rbracket :: t => some (.list [], t)
  | .lbracket :: t => (listTail [] t).map fun r => (.list r.1, r.2)
  | .word w :: t => (asmNumber w).map fun n => (.num n, t)
  | _ => none

/-- `operand { ',' operand }`, at most `fuel` operands (no command has more than three). -/
def asmOperands (fuel : Nat) (ts : List AsmToken) : Option (List AsmOperand) :=
  match fuel with
  | 0 => none
  | fuel + 1 =>
    match asmOperand ts with
    | none => none
    | some (o, []) => some [o]
    | some (o, .comma :: t) => (asmOperands fuel t).map (o :: ·)
    | some _ => none

/-- `line := [ command | directive ] [ ';' comment ]`; `none` where the line is of no such form. -/
def parseLine (line : List Char) : Option AsmLine :=
  match tokens [] line with
  | [] => some .blank
  | .word w :: t =>
    if w = "RST".toList then (if t.isEmpty then some .rst else none)
    else
      match allOpcodes.find? (fun o => (mnemonicText o).toList = w) with
      | none => none
      | some o => if t.isEmpty then some (.command o []) else (asmOperands 4 t).map (.command o)
  | _ => none

/-- The host's actions for one line of text. -/
def assembleLine (line : List Char) : Option (List HostAction) :=
  match parseLine line with
  | none => none
  | some l => assemble l

end Sys2Proof.Machine
end

