-- ==== Sys2Proof/Safety.lean ====
section
/-! DEFINITION. The terms claims are stated in: the invariant of the state (10_state.md rule R28), the pixel a coordinate holds,
and which commands are pure. -/

namespace Sys2Proof.Machine

/-- The byte of BUF at offset `a`. -/
def State.byteAt (s : State) (a : Nat) : Byte := Memory.read s.buf a

/-- The index that pixel `(x, y)` holds (20_memory.md rules R42, R46). -/
def State.pixelAt (s : State) (x y : Byte) : Index :=
  indexAt (s.byteAt (pixelMap s.size x y).1.toNat) (pixelMap s.size x y).2

/-- The invariant of 10_state.md rule R28: (a) no byte of BUF beyond `TOTALBYTES`, BUF in canonical form; (c) `ACTIVE = 0` implies
`SIZE = 0` and BUF empty. Clause (b) holds of any byte. -/
abbrev State.Inv (s : State) : Prop :=
  Memory.wf s.buf = true ∧ (∀ c ∈ s.buf, c.1 < (totalBytes s.size).toNat) ∧
    (s.active = false → s.size = 0 ∧ s.buf = [])

/-- The command index `ci` of the model's environment (10_state.md rule R21): one response per executed command, so it is the
number of responses. -/
def State.ci (s : State) : Nat := s.rsp.length

/-- The byte stream on RSP so far (30_encoding.md rules R71, R74). -/
def State.rspBytes (s : State) : List Byte := s.rsp.flatMap Response.bytes

/-- The byte form of the records on EVT so far (60_exceptions.md rule R176). -/
def State.evtBytes (s : State) : List Byte := s.evt.flatMap Event.bytes

/-- The ten pure commands (00_scope.md rule R11): the two ColorCodec and the eight Palette commands. -/
def isPureCommand : Opcode → Bool
  | .pack => true | .unpack => true
  | .cidx => true | .cfromidx => true | .packidx => true | .unpackidx => true
  | .idxat => true | .setidxat => true | .c2i => true | .i2c => true
  | .construct => false | .setpx => false | .getpx => false | .setpxc => false | .getpxc => false
  | .getraw => false | .getidx => false | .getcol => false | .freset => false | .batch => false

/-- The errors a command can report, from the column "raised by" of 60_exceptions.md rule R160. -/
def errorsOf : Opcode → List CmdError
  | .pack => []
  | .unpack => []
  | .cidx => [.colorNotInPalette]
  | .cfromidx => [.indexOutOfRange]
  | .packidx => [.indexOutOfRange, .tooManyIndices]
  | .unpackidx => []
  | .idxat => [.positionOutOfRange]
  | .setidxat => [.indexOutOfRange, .positionOutOfRange]
  | .c2i => [.colorNotInPalette]
  | .i2c => [.indexOutOfRange]
  | .construct => []
  | .setpx => [.coordinatesOutOfBounds, .indexOutOfRange, .notActive]
  | .getpx => [.coordinatesOutOfBounds, .notActive]
  | .setpxc => [.coordinatesOutOfBounds, .colorNotInPalette, .notActive]
  | .getpxc => [.coordinatesOutOfBounds, .notActive]
  | .getraw => [.notActive]
  | .getidx => [.notActive]
  | .getcol => [.notActive]
  | .freset => [.indexOutOfRange, .notActive]
  | .batch => [.coordinatesOutOfBounds, .indexOutOfRange, .arrayLengthMismatch, .notActive]

/-- The records a command emits when it ends with status OK (60_exceptions.md rule R176). -/
def eventsOnOk : Instr → List Event
  | .setpx x y idx => [.pixelChanged x y idx]
  | .setpxc x y c => match colorIndex c with
    | .ok i => [.pixelChanged x y (indexByte i)]
    | .error _ => []
  | .freset _ => [.frameReset]
  | .batch xs _ _ => [.batchSet (countByte xs)]
  | .pack _ _ _ => []
  | .unpack _ => []
  | .cidx _ => []
  | .cfromidx _ => []
  | .packidx _ => []
  | .unpackidx _ => []
  | .idxat _ _ => []
  | .setidxat _ _ _ => []
  | .c2i _ => []
  | .i2c _ => []
  | .construct _ => []
  | .getpx _ _ => []
  | .getpxc _ _ => []
  | .getraw => []
  | .getidx => []
  | .getcol => []

/-- The index that the elements of a batch leave in pixel `(x, y)`: the last element naming it wins, else the old index `old`
(42_pixelframe.md rule R148). -/
def lastIndex (l : List Triple) (x y : Byte) (old : Index) : Index :=
  match l with
  | [] => old
  | (x', y', idx) :: t => lastIndex t x y (if x' = x ∧ y' = y then low2 idx else old)

/-- BUF read as one little-endian integer (20_memory.md rule R43). -/
def littleEndian : List Byte → Nat
  | [] => 0
  | b :: t => b.toNat + 256 * littleEndian t

end Sys2Proof.Machine
end

