-- ==== Sys2Proof/Certificates/Slice0/Obligations.lean ====
section
/-! DEFINITION. The statements for the provers, in the order of OBLIGATIONS.json. Each docstring names the rule of the spec it
formalises. `s` is the state before, `t` the state after; a next state written as a record update of `s` is also the frame:
every field it does not name is unchanged. -/

open Sys2Proof Sys2Proof.Machine

/-! ## Encoding -/

/-- 30_encoding.md rule R78: `Decode` answers `NeedMore` exactly on a list that ends inside a command, `Illegal` on a reserved
opcode, and otherwise the well-formed command whose encoding is the first `CmdLen` bytes, with the rest; it inverts `Encode`
before any rest; and it is injective on complete byte strings. -/
def Obligations.DecodeIsTotalAndInvertsEncode : Prop :=
  (∀ s : List Byte,
    ((cmdLen s = none ∨ ∃ n, cmdLen s = some n ∧ s.length < n) ∧ decode s = .needMore) ∨
    (∃ op rest, s = op :: rest ∧ Opcode.ofByte op = none ∧ decode s = .illegal op rest) ∨
    (∃ i n, cmdLen s = some n ∧ n ≤ s.length ∧ i.WellFormed ∧ s.take n = encode i ∧
      (s.head?.bind Opcode.ofByte) = some i.opcode ∧ decode s = .cmd i (s.drop n))) ∧
  (∀ (i : Instr) (t : List Byte), i.WellFormed → decode (encode i ++ t) = .cmd i t) ∧
  (∀ (s s' : List Byte) (i : Instr), decode s = .cmd i [] → decode s' = .cmd i [] → s = s')

/-- 30_encoding.md rules R61, R62: the length in bytes of every command by its format, the length `CmdLen` reads from it, the
longest commands, and that a step consumes exactly these bytes whatever the outcome of the command. -/
def Obligations.CommandLengthAndConsumption : Prop :=
  ∀ i : Instr, i.WellFormed →
    (encode i).length = (match i with
      | .getraw | .getidx | .getcol => 1
      | .cfromidx _ | .unpackidx _ | .construct _ | .freset _ => 2
      | .idxat _ _ | .getpx _ _ | .getpxc _ _ => 3
      | .pack _ _ _ | .setidxat _ _ _ | .setpx _ _ _ | .unpack _ | .cidx _ => 4
      | .setpxc _ _ _ => 6
      | .packidx l | .i2c l => 2 + l.length
      | .c2i l => 2 + 3 * l.length
      | .batch xs ys ids => 4 + xs.length + ys.length + ids.length) ∧
    (encode i).length ≤ (match i with
      | .packidx _ | .i2c _ => 257
      | .c2i _ => 767
      | .batch _ _ _ => 769
      | _ => 6) ∧
    (∀ t : List Byte, cmdLen (encode i ++ t) = some (encode i).length) ∧
    (∀ (s : State) (t : List HostAction), s.cmd = (encode i).map .send ++ t →
      ∃ s', step s = .next s' ∧ s'.cmd = t)

/-- 30_encoding.md rule R69: the reserved opcodes are the 236 values listed; each is a command of one byte, answered with
`IllegalCommand` and nothing else; no other list of bytes is illegal and no command has a second opcode byte. -/
def Obligations.ReservedOpcodesAnswerIllegalCommand : Prop :=
  (∀ b : Byte, Opcode.ofByte b = none ↔
    b.toNat = 0x00 ∨ (0x03 ≤ b.toNat ∧ b.toNat ≤ 0x0F) ∨ (0x18 ≤ b.toNat ∧ b.toNat ≤ 0x1F) ∨ 0x2A ≤ b.toNat) ∧
  ((List.range 256).filter fun n => (Opcode.ofByte (BitVec.ofNat 8 n)).isNone).length = 236 ∧
  (∀ (s : State) (b : Byte) (t : List HostAction), Opcode.ofByte b = none → s.cmd = .send b :: t →
    step s = .next { s with cmd := t, rsp := s.rsp ++ [.error .illegalCommand] }) ∧
  (CmdError.code .illegalCommand = 0x80) ∧
  (∀ (s : List Byte) (op : Byte) (rest : List Byte), decode s = .illegal op rest →
    s = op :: rest ∧ Opcode.ofByte op = none) ∧
  (∀ (b b' : Byte) (o : Opcode), Opcode.ofByte b = some o → Opcode.ofByte b' = some o → b = b')

/-- 30_encoding.md rule R63: a color travels as three bytes, most significant first. -/
def Obligations.ColorTravelsMostSignificantFirst : Prop :=
  ∀ c2 c1 c0 : Byte,
    (colorOfBytes c2 c1 c0).toNat = c2.toNat * 65536 + c1.toNat * 256 + c0.toNat ∧
    colorBytes (colorOfBytes c2 c1 c0) = [c2, c1, c0]

/-- 30_encoding.md rules R61, R64: words written out from the encoding table decode to the commands they stand for. -/
def Obligations.EncodedWordsDecode : Prop :=
  decode [0x01, 0xFF, 0x80, 0x40] = .cmd (.pack 0xFF 0x80 0x40) [] ∧
  decode [0x12, 0x04, 0x00, 0x01, 0x02, 0x03] = .cmd (.packidx [0, 1, 2, 3]) [] ∧
  decode [0x23, 0x02, 0x02, 0x8C, 0x1C, 0x84] = .cmd (.setpxc 2 2 0x8C1C84) [] ∧
  decode [0x29, 0x02, 0x02, 0x02, 0x05, 0x02, 0x02, 0x05, 0x02, 0x03] = .cmd (.batch [5, 2] [2, 5] [2, 3]) [] ∧
  decode [0x16, 0x01, 0x45, 0xA2, 0xF8, 0x25] = .cmd (.c2i [0x45A2F8]) [0x25]

/-- 30_encoding.md rule R76, for parsed lines: a well-formed command with its operands as numbers and lists assembles to its
encoding; whatever a mnemonic with operands assembles to is the encoding of one well-formed command of that mnemonic whose
operands are exactly the ones given, so a number that does not fit its operand and a list longer than 255 are assembly errors;
a blank line assembles to nothing and `RST` to the assertion of RST. That operands of another number or kind are an assembly
error is the model's choice (log entry 13). -/
def Obligations.AssemblerAgreesWithEncode : Prop :=
  (∀ i : Instr, i.WellFormed → assemble (.command i.opcode (asmOperandsOf i)) = some ((encode i).map .send)) ∧
  (∀ (o : Opcode) (ops : List AsmOperand) (bs : List HostAction), assemble (.command o ops) = some bs →
    ∃ i : Instr, i.opcode = o ∧ i.WellFormed ∧ ops = asmOperandsOf i ∧ bs = (encode i).map .send) ∧
  assemble .blank = some [] ∧ assemble .rst = some [.rst]

/-! ## The step -/

/-- 20_memory.md rule R50, 30_encoding.md rule R68: when the bytes at the head of CMD are the encoding of a well-formed command,
the step removes them and executes that command. -/
def Obligations.StepRunsTheDecodedCommand : Prop :=
  ∀ (i : Instr) (s : State) (t : List HostAction), i.WellFormed → s.cmd = (encode i).map .send ++ t →
    step s = exec i { s with cmd := t }

/-- 30_encoding.md rule R68: while the bytes received since the last command boundary are no complete command and no RST
follows, the block waits and changes nothing. That waiting is a step to the same state is the model's choice (log entry 4). -/
def Obligations.IncompleteCommandWaits : Prop :=
  ∀ (s : State) (bs : List Byte), s.cmd = bs.map .send →
    (cmdLen bs = none ∨ ∃ n, cmdLen bs = some n ∧ bs.length < n) → step s = .next s

/-- 70_reset_and_hazards.md rule R190, 10_state.md rule R31: RST, whatever the state, leaves `ACTIVE = 0`, `SIZE = 0`, BUF empty
and no partly received command, with no response and no event; after it an RST changes nothing but consuming itself. -/
def Obligations.RstResetsTheBlock : Prop :=
  (∀ (s : State) (bs : List Byte) (t : List HostAction), s.cmd = bs.map .send ++ .rst :: t →
    (cmdLen bs = none ∨ ∃ n, cmdLen bs = some n ∧ bs.length < n) →
    step s = .next { s with active := false, size := 0, buf := [], cmd := t }) ∧
  (∀ (s : State) (t : List HostAction), s.active = false → s.size = 0 → s.buf = [] → s.cmd = .rst :: t →
    step s = .next { s with cmd := t })

/-- 10_state.md rule R31: the reset state. Empty streams are the model's choice (log entries 2 and 3). -/
def Obligations.ResetStateValues : Prop :=
  State.reset = { active := false, size := 0, buf := [], cmd := [], rsp := [], evt := [] }

/-- 10_state.md rule R28: the invariant holds after RST. -/
def Obligations.ResetMeetsTheInvariant : Prop := State.reset.Inv

/-- 10_state.md rule R28: every step keeps the invariant: BUF has no byte at or beyond `TOTALBYTES` and is in canonical form
(log entry 1), and `ACTIVE = 0` implies `SIZE = 0` and BUF empty. -/
def Obligations.StepKeepsTheInvariant : Prop :=
  ∀ s t : State, s.Inv → step s = .next t → t.Inv

/-- 70_reset_and_hazards.md rule R197, 60_exceptions.md rule R172: from every state whatever the block takes a step, never a fault
and never a refusal; responses and events already produced stay, at most one of each is added, an event only with a response,
and what is left on CMD is a tail of what was there. Waiting is a step too (log entry 4). -/
def Obligations.EveryStateSteps : Prop :=
  ∀ s : State, ∃ t rs es, step s = .next t ∧ t.rsp = s.rsp ++ rs ∧ rs.length ≤ 1 ∧
    t.evt = s.evt ++ es ∧ es.length ≤ rs.length ∧ t.cmd <:+ s.cmd

/-- 30_encoding.md rules R71, R74: every command, in every state, ends with exactly one response. -/
def Obligations.EveryCommandAnswersExactlyOnce : Prop :=
  ∀ (i : Instr) (s : State), ∃ t r, exec i s = .next t ∧ t.rsp = s.rsp ++ [r] ∧ t.cmd = s.cmd

/-- 60_exceptions.md rule R172: what a command does to the frame, its response and its events depend only on `ACTIVE`, `SIZE`, BUF
and its own operands, never on earlier statuses, earlier events or the bytes that follow it. -/
def Obligations.BehaviourDependsOnlyOnTheFrame : Prop :=
  ∀ (i : Instr) (s s' : State), s.active = s'.active → s.size = s'.size → s.buf = s'.buf →
    ∃ t t' r es, exec i s = .next t ∧ exec i s' = .next t' ∧
      t.active = t'.active ∧ t.size = t'.size ∧ t.buf = t'.buf ∧
      t.rsp = s.rsp ++ [r] ∧ t'.rsp = s'.rsp ++ [r] ∧ t.evt = s.evt ++ es ∧ t'.evt = s'.evt ++ es

/-- 95_test_vectors.md section 4 point 8, from 60_exceptions.md rule R161: the status of a response is decided by the operands,
`ACTIVE` and `SIZE` alone, not by the contents of BUF. -/
def Obligations.StatusDoesNotDependOnBuf : Prop :=
  ∀ (i : Instr) (s s' : State), s.active = s'.active → s.size = s'.size →
    ∃ t t' r r', exec i s = .next t ∧ exec i s' = .next t' ∧
      t.rsp = s.rsp ++ [r] ∧ t'.rsp = s'.rsp ++ [r'] ∧ r.status = r'.status

/-- 10_state.md rule R33: the lifecycle transitions of the commands (that of RST is `RstResetsTheBlock`). -/
def Obligations.LifecycleTransitions : Prop :=
  ∀ (i : Instr) (s : State), ∃ t, exec i s = .next t ∧
    (i.opcode = .construct → t.active = true) ∧
    (i.opcode ≠ .construct → t.active = s.active ∧ t.size = s.size)

/-- 10_state.md rules R22, R23, R33, as a rule of the whole machine: a step that changes `ACTIVE` or `SIZE` is a `CONSTRUCT`, which
leaves `ACTIVE = 1` and its operand in `SIZE`, or an RST, which leaves both 0. That this RST is taken only
when no complete command stands before it on CMD is the model's choice (log entry 2, unsafe). -/
def Obligations.OnlyConstructAndRstChangeTheLifecycle : Prop :=
  ∀ s t : State, step s = .next t → (t.active ≠ s.active ∨ t.size ≠ s.size) →
    (∃ n q, s.cmd = .send 0x20 :: .send n :: q ∧ t.active = true ∧ t.size = n ∧ t.cmd = q) ∨
    (∃ (bs : List Byte) (q : List HostAction), s.cmd = bs.map .send ++ .rst :: q ∧
      (cmdLen bs = none ∨ ∃ n, cmdLen bs = some n ∧ bs.length < n) ∧ t.active = false ∧ t.size = 0 ∧ t.cmd = q)

/-- 10_state.md section 1: of all commands only five write frame state; every other one, failed or not, adds its one response and
changes nothing else. -/
def Obligations.OnlyFiveCommandsWriteTheFrame : Prop :=
  ∀ (i : Instr) (s : State),
    i.opcode ∉ [Opcode.construct, .setpx, .setpxc, .freset, .batch] →
    ∃ r, exec i s = .next { s with rsp := s.rsp ++ [r] }

/-- 41_palette.md and 40_colorcodec.md: the ten pure commands give the same response in every state and change nothing else. -/
def Obligations.PureCommandsIgnoreTheState : Prop :=
  ∀ i : Instr, isPureCommand i.opcode = true →
    ∃ r, ∀ s : State, exec i s = .next { s with rsp := s.rsp ++ [r] }

/-- 60_exceptions.md rule R160, 30_encoding.md rule R71: the nine status codes; a response is its status byte followed by its data,
an error's the status byte alone; and for each command the errors it can report. -/
def Obligations.StatusCodesAndWhoRaisesThem : Prop :=
  (∀ d : List Byte, Response.status (.ok d) = 0x00 ∧ Response.bytes (.ok d) = 0x00 :: d) ∧
  (∀ e : CmdError, Response.status (.error e) = e.code ∧ Response.bytes (.error e) = [e.code]) ∧
  (CmdError.code .coordinatesOutOfBounds = 0x01 ∧ CmdError.code .colorNotInPalette = 0x02 ∧
    CmdError.code .indexOutOfRange = 0x03 ∧ CmdError.code .positionOutOfRange = 0x04 ∧
    CmdError.code .arrayLengthMismatch = 0x05 ∧ CmdError.code .tooManyIndices = 0x06 ∧
    CmdError.code .illegalCommand = 0x80 ∧ CmdError.code .notActive = 0x81) ∧
  (∀ (i : Instr) (s : State), ∃ t r, exec i s = .next t ∧ t.rsp = s.rsp ++ [r] ∧
    ((∃ d, r = .ok d) ∨ ∃ e ∈ errorsOf i.opcode, r = .error e))

/-- 60_exceptions.md rule R171: a command that ends with an error leaves `ACTIVE` and `SIZE`, emits nothing, and, unless it is a
batch, leaves BUF: the whole state but for its response; the response is the status byte alone. -/
def Obligations.ErrorEntryChangesNothingElse : Prop :=
  ∀ (i : Instr) (s t : State) (e : CmdError), exec i s = .next t → t.rsp = s.rsp ++ [.error e] →
    (Response.bytes (.error e) = [e.code]) ∧
    t.active = s.active ∧ t.size = s.size ∧ t.cmd = s.cmd ∧ t.evt = s.evt ∧
    (i.opcode ≠ .batch → t.buf = s.buf)

/-- 60_exceptions.md rule R176: the byte form of the three records; a command that ends with status OK emits the records of its
kind, and one that ends with an error none. -/
def Obligations.EventsOfEveryCommand : Prop :=
  (∀ x y idx n : Byte, Event.bytes (.pixelChanged x y idx) = [0x01, x, y, idx] ∧
    Event.bytes (.batchSet n) = [0x02, n] ∧ Event.bytes .frameReset = [0x03]) ∧
  (∀ (i : Instr) (s : State), ∃ t r, exec i s = .next t ∧ t.rsp = s.rsp ++ [r] ∧
    (∀ d, r = .ok d → t.evt = s.evt ++ eventsOnOk i) ∧ (∀ e, r = .error e → t.evt = s.evt))

/-- 60_exceptions.md rule R176: with `P_EVENTS = 0` every emit is a no-op and nothing else changes, in each of the four commands
that emit. -/
def Obligations.EventsParameterChangesOnlyEvents : Prop :=
  ∀ (p : Params) (s : State) (f : Params → State → Host.Outcome State Fault Refusal),
    ((∃ x y idx, f = fun p => setpxWith p x y idx) ∨ (∃ x y c, f = fun p => setpxcWith p x y c) ∨
      (∃ fill, f = fun p => fresetWith p fill) ∨ (∃ xs ys ids, f = fun p => batchWith p xs ys ids)) →
    ∃ t, f { p with events := true } s = .next t ∧
      f { p with events := false } s = .next { t with evt := s.evt }

/-! ## ColorCodec -/

/-- 40_colorcodec.md rule R100: `PACK` answers the color `red*2^16 + green*2^8 + blue`, most significant byte first, in every
state and for every operand. -/
def Obligations.PackResult : Prop :=
  ∀ (r g b : Byte) (s : State),
    encode (.pack r g b) = [0x01, r, g, b] ∧
    exec (.pack r g b) s = .next { s with rsp := s.rsp ++ [.ok (colorBytes (pack r g b))] } ∧
    (pack r g b).toNat = r.toNat * 65536 + g.toNat * 256 + b.toNat ∧
    colorBytes (pack r g b) = [r, g, b]

/-- 40_colorcodec.md rule R101: `UNPACK` answers red, green, blue, in every state and for every color. -/
def Obligations.UnpackResult : Prop :=
  ∀ (c : Color) (s : State), ∃ red green blue : Byte,
    encode (.unpack c) = [0x02, red, green, blue] ∧
    exec (.unpack c) s = .next { s with rsp := s.rsp ++ [.ok [red, green, blue]] } ∧
    unpack c = (red, green, blue) ∧
    red.toNat = c.toNat / 65536 ∧ green.toNat = c.toNat / 256 % 256 ∧ blue.toNat = c.toNat % 256

/-- 40_colorcodec.md rule R103: `Pack` and `Unpack` are inverse bijections. -/
def Obligations.PackAndUnpackAreInverse : Prop :=
  (∀ r g b : Byte, unpack (pack r g b) = (r, g, b)) ∧
  (∀ c : Color, pack (unpack c).1 (unpack c).2.1 (unpack c).2.2 = c) ∧
  Function.Bijective (fun t : Byte × Byte × Byte => pack t.1 t.2.1 t.2.2)

/-! ## Palette -/

/-- 10_state.md rule R26: the four constants, their channels, and that index and color determine each other. -/
def Obligations.PaletteTable : Prop :=
  PAL 0 = 0xFFFFFF ∧ PAL 1 = 0x000000 ∧ PAL 2 = 0x8C1C84 ∧ PAL 3 = 0x45A2F8 ∧
  unpack (PAL 0) = (0xFF, 0xFF, 0xFF) ∧ unpack (PAL 1) = (0x00, 0x00, 0x00) ∧
  unpack (PAL 2) = (0x8C, 0x1C, 0x84) ∧ unpack (PAL 3) = (0x45, 0xA2, 0xF8) ∧
  ∀ i j : Index, PAL i = PAL j → i = j

/-- 41_palette.md rules R110, R114: `CIDX` answers the index of each of the four colors and `ColorNotInPalette` for every other
color. -/
def Obligations.CidxResult : Prop :=
  ∀ (c : Color) (s : State),
    encode (.cidx c) = [0x10, c.extractLsb 23 16, c.extractLsb 15 8, c.extractLsb 7 0] ∧
    (c = 0xFFFFFF → exec (.cidx c) s = .next { s with rsp := s.rsp ++ [.ok [0]] }) ∧
    (c = 0x000000 → exec (.cidx c) s = .next { s with rsp := s.rsp ++ [.ok [1]] }) ∧
    (c = 0x8C1C84 → exec (.cidx c) s = .next { s with rsp := s.rsp ++ [.ok [2]] }) ∧
    (c = 0x45A2F8 → exec (.cidx c) s = .next { s with rsp := s.rsp ++ [.ok [3]] }) ∧
    (c ≠ 0xFFFFFF → c ≠ 0x000000 → c ≠ 0x8C1C84 → c ≠ 0x45A2F8 →
      exec (.cidx c) s = .next { s with rsp := s.rsp ++ [.error .colorNotInPalette] })

/-- 41_palette.md rules R111, R115: `CFROMIDX` answers the color of an index below 4 and `IndexOutOfRange` for 4..255. -/
def Obligations.CfromidxResult : Prop :=
  ∀ (idx : Byte) (s : State),
    encode (.cfromidx idx) = [0x11, idx] ∧
    (∀ i : Index, idx.toNat = i.toNat →
      exec (.cfromidx idx) s = .next { s with rsp := s.rsp ++ [.ok (colorBytes (PAL i))] }) ∧
    (4 ≤ idx.toNat → exec (.cfromidx idx) s = .next { s with rsp := s.rsp ++ [.error .indexOutOfRange] })

/-- 41_palette.md rule R116: `PACKIDX` of at most four indices below 4 answers the byte whose field k is element k, the fields
beyond the last element zero; more than four elements are `TooManyIndices` whatever they are, otherwise an element of 4 or more
is `IndexOutOfRange`. What it says of lists
of more than 255 elements, which no command on CMD has, is the model's choice (log entry 12). -/
def Obligations.PackidxResult : Prop :=
  ∀ (idxs : List Byte) (s : State),
    encode (.packidx idxs) = 0x12 :: BitVec.ofNat 8 idxs.length :: idxs ∧
    (idxs.length ≤ 4 → (∀ i ∈ idxs, i.toNat < 4) →
      ∃ b : Byte, exec (.packidx idxs) s = .next { s with rsp := s.rsp ++ [.ok [b]] } ∧
        ∀ k < 4, b.toNat / 4 ^ k % 4 = (idxs.getD k 0).toNat) ∧
    (4 < idxs.length → exec (.packidx idxs) s = .next { s with rsp := s.rsp ++ [.error .tooManyIndices] }) ∧
    (idxs.length ≤ 4 → (∃ i ∈ idxs, 4 ≤ i.toNat) →
      exec (.packidx idxs) s = .next { s with rsp := s.rsp ++ [.error .indexOutOfRange] })

/-- 41_palette.md rule R117: `UNPACKIDX` answers the four fields in position order, for every byte and in every state. -/
def Obligations.UnpackidxResult : Prop :=
  ∀ (byte : Byte) (s : State), encode (.unpackidx byte) = [0x13, byte] ∧ ∃ i0 i1 i2 i3 : Byte,
    exec (.unpackidx byte) s = .next { s with rsp := s.rsp ++ [.ok [i0, i1, i2, i3]] } ∧
    i0.toNat = byte.toNat % 4 ∧ i1.toNat = byte.toNat / 4 % 4 ∧
    i2.toNat = byte.toNat / 16 % 4 ∧ i3.toNat = byte.toNat / 64

/-- 41_palette.md rule R118: `IDXAT` answers the field at a position below 4 and `PositionOutOfRange` for 4..255. -/
def Obligations.IdxatResult : Prop :=
  ∀ (byte pos : Byte) (s : State),
    encode (.idxat byte pos) = [0x14, byte, pos] ∧
    (pos.toNat < 4 → ∃ i : Byte, exec (.idxat byte pos) s = .next { s with rsp := s.rsp ++ [.ok [i]] } ∧
      i.toNat = byte.toNat / 4 ^ pos.toNat % 4) ∧
    (4 ≤ pos.toNat → exec (.idxat byte pos) s = .next { s with rsp := s.rsp ++ [.error .positionOutOfRange] })

/-- 41_palette.md rule R119: `SETIDXAT` answers the byte with the field at the position replaced and the other three passed
through; a bad position is `PositionOutOfRange` whatever the index, otherwise a bad index is `IndexOutOfRange`. -/
def Obligations.SetidxatResult : Prop :=
  ∀ (byte pos idx : Byte) (s : State),
    encode (.setidxat byte pos idx) = [0x15, byte, pos, idx] ∧
    (pos.toNat < 4 → idx.toNat < 4 →
      ∃ b : Byte, exec (.setidxat byte pos idx) s = .next { s with rsp := s.rsp ++ [.ok [b]] } ∧
        ∀ k < 4, b.toNat / 4 ^ k % 4 = if k = pos.toNat then idx.toNat else byte.toNat / 4 ^ k % 4) ∧
    (4 ≤ pos.toNat → exec (.setidxat byte pos idx) s = .next { s with rsp := s.rsp ++ [.error .positionOutOfRange] }) ∧
    (pos.toNat < 4 → 4 ≤ idx.toNat →
      exec (.setidxat byte pos idx) s = .next { s with rsp := s.rsp ++ [.error .indexOutOfRange] })

/-- 41_palette.md rule R120: `C2I` of palette colors answers their indices in element order; one color outside the palette makes
it `ColorNotInPalette` with no data. What it says of lists
of more than 255 elements, which no command on CMD has, is the model's choice (log entry 12). -/
def Obligations.C2iResult : Prop :=
  (∀ cs : List Color, encode (.c2i cs) = 0x16 :: BitVec.ofNat 8 cs.length :: cs.flatMap colorBytes) ∧
  (∀ (is : List Index) (s : State),
    exec (.c2i (is.map PAL)) s = .next { s with rsp := s.rsp ++ [.ok (is.map fun i => i.setWidth 8)] }) ∧
  (∀ (cs : List Color) (s : State), (∃ c ∈ cs, ∀ i : Index, PAL i ≠ c) →
    exec (.c2i cs) s = .next { s with rsp := s.rsp ++ [.error .colorNotInPalette] })

/-- 41_palette.md rule R121: `I2C` of indices below 4, however many, answers their colors in element order; one index of 4 or more
makes it `IndexOutOfRange` with no data. What it says of lists
of more than 255 elements, which no command on CMD has, is the model's choice (log entry 12). -/
def Obligations.I2cResult : Prop :=
  (∀ idxs : List Byte, encode (.i2c idxs) = 0x17 :: BitVec.ofNat 8 idxs.length :: idxs) ∧
  (∀ (is : List Index) (s : State),
    exec (.i2c (is.map fun i => i.setWidth 8)) s =
      .next { s with rsp := s.rsp ++ [.ok (is.flatMap fun i => colorBytes (PAL i))] }) ∧
  (∀ (idxs : List Byte) (s : State), (∃ i ∈ idxs, 4 ≤ i.toNat) →
    exec (.i2c idxs) s = .next { s with rsp := s.rsp ++ [.error .indexOutOfRange] })

/-- 41_palette.md rule R122: (a), (b) the two lookups are inverse; (c) unpacking what was packed gives the sequence back, the
remaining fields 0; (d) packing the four fields of a byte gives the byte back. -/
def Obligations.PaletteLaws : Prop :=
  (∀ (c : Color) (i : Index), colorIndex c = .ok i → colorFromIndex (i.setWidth 8) = .ok c) ∧
  (∀ i : Index, colorFromIndex (i.setWidth 8) = .ok (PAL i) ∧ colorIndex (PAL i) = .ok i) ∧
  (∀ is : List Index, is.length ≤ 4 →
    ∃ b, packIndices (is.map fun i => i.setWidth 8) = .ok b ∧ lanes b = is ++ List.replicate (4 - is.length) 0) ∧
  (∀ b : Byte, packIndices ((lanes b).map fun i => i.setWidth 8) = .ok b)

/-- 41_palette.md rule R113, 20_memory.md rule R41: inserting a field and reading fields back. -/
def Obligations.FieldInsertAndExtract : Prop :=
  ∀ (b : Byte) (k j v w : Index),
    (indexAt b k).toNat = b.toNat / 4 ^ k.toNat % 4 ∧
    indexAt (setIndexAt b k v) k = v ∧
    (j ≠ k → indexAt (setIndexAt b k v) j = indexAt b j) ∧
    setIndexAt b k (indexAt b k) = b ∧
    setIndexAt (setIndexAt b k v) k w = setIndexAt b k w

/-! ## Sizes and the address mapper -/

/-- 10_state.md rule R24: `TOTALPIXELS` and `TOTALBYTES` are exact at their widths for every size. -/
def Obligations.FrameSizesAreExact : Prop :=
  ∀ size : Byte,
    (totalPixels size).toNat = size.toNat * size.toNat ∧
    (totalBytes size).toNat = (size.toNat * size.toNat + 3) / 4 ∧
    (totalPixels size).toNat ≤ 65025 ∧ (totalBytes size).toNat ≤ Config.bufCapacity ∧
    (totalPixels size).toNat % 4 = size.toNat % 2

/-- 20_memory.md rules R44, R45: for in-bounds coordinates the mapper gives byte `(y*SIZE+x) div 4` and field `(y*SIZE+x) mod 4`
exactly, inside the frame, and different coordinates map to different fields. -/
def Obligations.MapperIsExactAndInjective : Prop :=
  (∀ size x y : Byte, inBounds size x y = true ↔ x.toNat < size.toNat ∧ y.toNat < size.toNat) ∧
  (∀ size x y : Byte, inBounds size x y = true →
    (pixelMap size x y).1.toNat = (y.toNat * size.toNat + x.toNat) / 4 ∧
    (pixelMap size x y).2.toNat = (y.toNat * size.toNat + x.toNat) % 4 ∧
    y.toNat * size.toNat + x.toNat < (totalPixels size).toNat ∧
    (pixelMap size x y).1.toNat < (totalBytes size).toNat) ∧
  (∀ size x y x' y' : Byte, inBounds size x y = true → inBounds size x' y' = true →
    pixelMap size x y = pixelMap size x' y' → x = x' ∧ y = y')

/-- 20_memory.md rule R43: with BUF read as one little-endian integer, pixel p occupies bits 2p+1 : 2p. -/
def Obligations.BufIsALittleEndianBitString : Prop :=
  ∀ (s : State) (x y : Byte), inBounds s.size x y = true →
    littleEndian (bufBytes s) / 4 ^ (y.toNat * s.size.toNat + x.toNat) % 4 = (s.pixelAt x y).toNat

/-! ## PixelFrame -/

/-- 42_pixelframe.md rule R130: `CONSTRUCT`, in every state, always succeeds and leaves an active frame of the given size,
every byte 0x00, whatever frame there was; no event. -/
def Obligations.ConstructResult : Prop :=
  ∀ (size : Byte) (s : State), encode (.construct size) = [0x20, size] ∧ ∃ t, exec (.construct size) s = .next t ∧
    t.active = true ∧ t.size = size ∧ (∀ a, t.byteAt a = 0) ∧ (∀ x y : Byte, t.pixelAt x y = 0) ∧ t.Inv ∧
    t.cmd = s.cmd ∧ t.rsp = s.rsp ++ [.ok []] ∧ t.evt = s.evt

/-- 42_pixelframe.md rule R132: while `ACTIVE = 0` the nine frame commands other than `CONSTRUCT` answer `NotActive` whatever their
operands, change nothing and emit nothing. -/
def Obligations.FrameCommandsNeedActive : Prop :=
  ∀ (i : Instr) (s : State), isPureCommand i.opcode = false → i.opcode ≠ .construct → s.active = false →
    exec i s = .next { s with rsp := s.rsp ++ [.error .notActive] }

/-- 42_pixelframe.md rule R134, 20_memory.md rule R47: `SETPX` of an active frame, in bounds and with an index below 4, replaces
field k of byte a of BUF, where (a, k) is the mapper's place, leaves every other byte, emits one `PixelChanged` and answers OK.
Checks in order, each changing nothing: `NotActive`; out of bounds, whatever the index, `CoordinatesOutOfBounds`;
`IndexOutOfRange`. The premise on BUF is its canonical form, which every step keeps (`StepKeepsTheInvariant`). -/
def Obligations.SetpxResult : Prop :=
  ∀ (x y idx : Byte) (s : State),
    encode (.setpx x y idx) = [0x21, x, y, idx] ∧
    (∀ i : Index, s.active = true → x.toNat < s.size.toNat → y.toNat < s.size.toNat → idx.toNat = i.toNat →
      Memory.wf s.buf = true →
      ∃ t, exec (.setpx x y idx) s = .next t ∧
        (∀ a : Nat, t.byteAt a =
          if a = (pixelMap s.size x y).1.toNat then setIndexAt (s.byteAt a) (pixelMap s.size x y).2 i else s.byteAt a) ∧
        (pixelMap s.size x y).1.toNat = (y.toNat * s.size.toNat + x.toNat) / 4 ∧
        (pixelMap s.size x y).2.toNat = (y.toNat * s.size.toNat + x.toNat) % 4 ∧
        t.active = true ∧ t.size = s.size ∧ t.cmd = s.cmd ∧
        t.rsp = s.rsp ++ [.ok []] ∧ t.evt = s.evt ++ [.pixelChanged x y idx] ∧
        ∀ x' y' : Byte, x'.toNat < s.size.toNat → y'.toNat < s.size.toNat →
          t.pixelAt x' y' = if x' = x ∧ y' = y then i else s.pixelAt x' y') ∧
    (s.active = false → exec (.setpx x y idx) s = .next { s with rsp := s.rsp ++ [.error .notActive] }) ∧
    (s.active = true → ¬ (x.toNat < s.size.toNat ∧ y.toNat < s.size.toNat) →
      exec (.setpx x y idx) s = .next { s with rsp := s.rsp ++ [.error .coordinatesOutOfBounds] }) ∧
    (s.active = true → x.toNat < s.size.toNat → y.toNat < s.size.toNat → 4 ≤ idx.toNat →
      exec (.setpx x y idx) s = .next { s with rsp := s.rsp ++ [.error .indexOutOfRange] })

/-- 42_pixelframe.md rule R138: `SETPXC` of an active frame, in bounds and with palette color number i, writes index i as `SETPX`
does and emits `PixelChanged` with that index. Checks in order, each changing nothing: `NotActive`; a color outside the palette,
whatever the coordinates, `ColorNotInPalette`; `CoordinatesOutOfBounds`. -/
def Obligations.SetpxcResult : Prop :=
  ∀ (x y : Byte) (s : State),
    (∀ c : Color, encode (.setpxc x y c) = [0x23, x, y, c.extractLsb 23 16, c.extractLsb 15 8, c.extractLsb 7 0]) ∧
    (∀ i : Index, s.active = true → x.toNat < s.size.toNat → y.toNat < s.size.toNat → Memory.wf s.buf = true →
      ∃ t, exec (.setpxc x y (PAL i)) s = .next t ∧
        (∀ a : Nat, t.byteAt a =
          if a = (pixelMap s.size x y).1.toNat then setIndexAt (s.byteAt a) (pixelMap s.size x y).2 i else s.byteAt a) ∧
        (pixelMap s.size x y).1.toNat = (y.toNat * s.size.toNat + x.toNat) / 4 ∧
        (pixelMap s.size x y).2.toNat = (y.toNat * s.size.toNat + x.toNat) % 4 ∧
        t.active = true ∧ t.size = s.size ∧ t.cmd = s.cmd ∧
        t.rsp = s.rsp ++ [.ok []] ∧ t.evt = s.evt ++ [.pixelChanged x y (i.setWidth 8)] ∧
        ∀ x' y' : Byte, x'.toNat < s.size.toNat → y'.toNat < s.size.toNat →
          t.pixelAt x' y' = if x' = x ∧ y' = y then i else s.pixelAt x' y') ∧
    (∀ c : Color, s.active = false →
      exec (.setpxc x y c) s = .next { s with rsp := s.rsp ++ [.error .notActive] }) ∧
    (∀ c : Color, s.active = true → (∀ i : Index, PAL i ≠ c) →
      exec (.setpxc x y c) s = .next { s with rsp := s.rsp ++ [.error .colorNotInPalette] }) ∧
    (∀ i : Index, s.active = true → ¬ (x.toNat < s.size.toNat ∧ y.toNat < s.size.toNat) →
      exec (.setpxc x y (PAL i)) s = .next { s with rsp := s.rsp ++ [.error .coordinatesOutOfBounds] })

/-- 42_pixelframe.md rule R136: `GETPX` of an active frame, in bounds, answers the index of the pixel, the field
`(y*SIZE+x) mod 4` of byte `(y*SIZE+x) div 4`. Checks in order: `NotActive`; `CoordinatesOutOfBounds`. Nothing else changes. -/
def Obligations.GetpxResult : Prop :=
  ∀ (x y : Byte) (s : State),
    encode (.getpx x y) = [0x22, x, y] ∧
    (s.active = true → x.toNat < s.size.toNat → y.toNat < s.size.toNat →
      ∃ i : Byte, exec (.getpx x y) s = .next { s with rsp := s.rsp ++ [.ok [i]] } ∧
        i.toNat = (s.byteAt ((y.toNat * s.size.toNat + x.toNat) / 4)).toNat
          / 4 ^ ((y.toNat * s.size.toNat + x.toNat) % 4) % 4) ∧
    (s.active = false → exec (.getpx x y) s = .next { s with rsp := s.rsp ++ [.error .notActive] }) ∧
    (s.active = true → ¬ (x.toNat < s.size.toNat ∧ y.toNat < s.size.toNat) →
      exec (.getpx x y) s = .next { s with rsp := s.rsp ++ [.error .coordinatesOutOfBounds] })

/-- 42_pixelframe.md rule R140: `GETPXC` of an active frame, in bounds, answers the palette color of the pixel's index. Checks in
order: `NotActive`; `CoordinatesOutOfBounds`. Nothing else changes. -/
def Obligations.GetpxcResult : Prop :=
  ∀ (x y : Byte) (s : State),
    encode (.getpxc x y) = [0x24, x, y] ∧
    (s.active = true → x.toNat < s.size.toNat → y.toNat < s.size.toNat →
      ∃ i : Index, exec (.getpxc x y) s = .next { s with rsp := s.rsp ++ [.ok (colorBytes (PAL i))] } ∧
        i.toNat = (s.byteAt ((y.toNat * s.size.toNat + x.toNat) / 4)).toNat
          / 4 ^ ((y.toNat * s.size.toNat + x.toNat) % 4) % 4) ∧
    (s.active = false → exec (.getpxc x y) s = .next { s with rsp := s.rsp ++ [.error .notActive] }) ∧
    (s.active = true → ¬ (x.toNat < s.size.toNat ∧ y.toNat < s.size.toNat) →
      exec (.getpxc x y) s = .next { s with rsp := s.rsp ++ [.error .coordinatesOutOfBounds] })

/-- 42_pixelframe.md rule R142: `GETRAW` of an active frame answers `BUF[0] .. BUF[TOTALBYTES-1]`, padding fields as they stand;
`NotActive` otherwise. Nothing else changes. -/
def Obligations.GetrawResult : Prop :=
  ∀ s : State,
    encode .getraw = [0x25] ∧
    (s.active = true → ∃ d : List Byte, exec .getraw s = .next { s with rsp := s.rsp ++ [.ok d] } ∧
      d.length = (s.size.toNat * s.size.toNat + 3) / 4 ∧ ∀ a < d.length, d[a]? = some (s.byteAt a)) ∧
    (s.active = false → exec .getraw s = .next { s with rsp := s.rsp ++ [.error .notActive] })

/-- 42_pixelframe.md rule R144: `GETIDX` of an active frame answers the index of each pixel in row-major order, one byte each, and
no padding field; `NotActive` otherwise. Nothing else changes. -/
def Obligations.GetidxResult : Prop :=
  ∀ s : State,
    encode .getidx = [0x26] ∧
    (s.active = true → ∃ d : List Byte, exec .getidx s = .next { s with rsp := s.rsp ++ [.ok d] } ∧
      d.length = s.size.toNat * s.size.toNat ∧
      (∀ p < d.length, (d[p]?.map BitVec.toNat) = some ((s.byteAt (p / 4)).toNat / 4 ^ (p % 4) % 4)) ∧
      (∀ x y : Byte, x.toNat < s.size.toNat → y.toNat < s.size.toNat →
        d[y.toNat * s.size.toNat + x.toNat]? = some ((s.pixelAt x y).setWidth 8))) ∧
    (s.active = false → exec .getidx s = .next { s with rsp := s.rsp ++ [.error .notActive] })

/-- 42_pixelframe.md rule R145: `GETCOL` of an active frame answers the palette colors of the pixels in row-major order, three bytes
each; `NotActive` otherwise. Nothing else changes. -/
def Obligations.GetcolResult : Prop :=
  ∀ s : State,
    encode .getcol = [0x27] ∧
    (s.active = true → ∃ is : List Index,
      exec .getcol s = .next { s with rsp := s.rsp ++ [.ok (is.flatMap fun i => colorBytes (PAL i))] } ∧
      is.length = s.size.toNat * s.size.toNat ∧
      (is.flatMap fun i => colorBytes (PAL i)).length = 3 * (s.size.toNat * s.size.toNat) ∧
      ∀ p < is.length, (is[p]?.map BitVec.toNat) = some ((s.byteAt (p / 4)).toNat / 4 ^ (p % 4) % 4)) ∧
    (s.active = false → exec .getcol s = .next { s with rsp := s.rsp ++ [.error .notActive] })

/-- 42_pixelframe.md rule R146: `FRESET` of an active frame with a fill below 4 overwrites every whole byte of BUF with the fill
index in all four fields, so the padding fields too, emits one `FrameReset` and answers OK. Checks in order, each changing
nothing: `NotActive`; `IndexOutOfRange`. -/
def Obligations.FresetResult : Prop :=
  ∀ (fill : Byte) (s : State),
    encode (.freset fill) = [0x28, fill] ∧
    (∀ f : Index, s.active = true → fill.toNat = f.toNat → ∃ t, exec (.freset fill) s = .next t ∧
      (∀ a < (totalBytes s.size).toNat, (t.byteAt a).toNat = f.toNat * 0x55) ∧
      (s.Inv → ∀ a, (totalBytes s.size).toNat ≤ a → t.byteAt a = s.byteAt a) ∧
      (∀ x y : Byte, x.toNat < s.size.toNat → y.toNat < s.size.toNat → t.pixelAt x y = f) ∧
      t.active = true ∧ t.size = s.size ∧ t.cmd = s.cmd ∧
      t.rsp = s.rsp ++ [.ok []] ∧ t.evt = s.evt ++ [.frameReset]) ∧
    (s.active = false → exec (.freset fill) s = .next { s with rsp := s.rsp ++ [.error .notActive] }) ∧
    (s.active = true → 4 ≤ fill.toNat →
      exec (.freset fill) s = .next { s with rsp := s.rsp ++ [.error .indexOutOfRange] })

/-- 42_pixelframe.md rules R148, R150: a batch, in this order. Inactive: `NotActive`. Lengths that differ: `ArrayLengthMismatch`.
Neither changes anything. All elements good: every element is applied, so each pixel holds what the last element naming it wrote,
else what it held; the response is OK and the one event is `BatchSet(lx)`. The first k elements good and element k bad: those k
are applied in the same sense, the response is the error of element k, bounds before index, and there is no event. In the last
two cases every byte of BUF that no applied element is mapped to is as before. For lists of more than 255 elements, which no
command on CMD has, all of this is the model's choice, the wrapped count bytes of the encoding and of `BatchSet` among it (log
entry 12). -/
def Obligations.BatchAppliesElementsInOrder : Prop :=
  ∀ (xs ys ids : List Byte) (s : State),
    encode (.batch xs ys ids) =
      0x29 :: BitVec.ofNat 8 xs.length :: BitVec.ofNat 8 ys.length :: BitVec.ofNat 8 ids.length :: (xs ++ ys ++ ids) ∧
    (s.active = false → exec (.batch xs ys ids) s = .next { s with rsp := s.rsp ++ [.error .notActive] }) ∧
    (s.active = true → ¬ (xs.length = ys.length ∧ ys.length = ids.length) →
      exec (.batch xs ys ids) s = .next { s with rsp := s.rsp ++ [.error .arrayLengthMismatch] }) ∧
    (s.active = true → s.Inv → xs.length = ys.length → ys.length = ids.length →
      (∀ e ∈ triples xs ys ids, e.1.toNat < s.size.toNat ∧ e.2.1.toNat < s.size.toNat ∧ e.2.2.toNat < 4) →
      ∃ t, exec (.batch xs ys ids) s = .next t ∧
        (∀ x y : Byte, x.toNat < s.size.toNat → y.toNat < s.size.toNat →
          t.pixelAt x y = lastIndex (triples xs ys ids) x y (s.pixelAt x y)) ∧
        (∀ a : Nat, (∀ e ∈ triples xs ys ids, (pixelMap s.size e.1 e.2.1).1.toNat ≠ a) → t.byteAt a = s.byteAt a) ∧
        t.active = true ∧ t.size = s.size ∧ t.cmd = s.cmd ∧
        t.rsp = s.rsp ++ [.ok []] ∧ t.evt = s.evt ++ [.batchSet (BitVec.ofNat 8 xs.length)]) ∧
    (∀ (k : Nat) (x y idx : Byte) (err : CmdError),
      s.active = true → s.Inv → xs.length = ys.length → ys.length = ids.length →
      (∀ e ∈ (triples xs ys ids).take k,
        e.1.toNat < s.size.toNat ∧ e.2.1.toNat < s.size.toNat ∧ e.2.2.toNat < 4) →
      (triples xs ys ids)[k]? = some (x, y, idx) →
      ((¬ (x.toNat < s.size.toNat ∧ y.toNat < s.size.toNat) ∧ err = .coordinatesOutOfBounds) ∨
        (x.toNat < s.size.toNat ∧ y.toNat < s.size.toNat ∧ 4 ≤ idx.toNat ∧ err = .indexOutOfRange)) →
      ∃ t, exec (.batch xs ys ids) s = .next t ∧
        (∀ x y : Byte, x.toNat < s.size.toNat → y.toNat < s.size.toNat →
          t.pixelAt x y = lastIndex ((triples xs ys ids).take k) x y (s.pixelAt x y)) ∧
        (∀ a : Nat, (∀ e ∈ (triples xs ys ids).take k, (pixelMap s.size e.1 e.2.1).1.toNat ≠ a) →
          t.byteAt a = s.byteAt a) ∧
        t.active = true ∧ t.size = s.size ∧ t.cmd = s.cmd ∧
        t.rsp = s.rsp ++ [.error err] ∧ t.evt = s.evt)

/-- 42_pixelframe.md rule R149: under `P_BATCH_ATOMIC = 1` the status and the events of a batch are those under 0, and so is the
whole state after a successful one; after a failed one BUF is what it was before the batch. -/
def Obligations.AtomicBatchDiffersOnlyInBufAfterFailure : Prop :=
  ∀ (p : Params) (xs ys ids : List Byte) (s : State), ∃ t u,
    batchWith { p with batchAtomic := false } xs ys ids s = .next t ∧
    batchWith { p with batchAtomic := true } xs ys ids s = .next u ∧
    u.rsp = t.rsp ∧ u.evt = t.evt ∧ u.active = t.active ∧ u.size = t.size ∧ u.cmd = t.cmd ∧
    (t.rsp = s.rsp ++ [.ok []] → u = t) ∧
    (∀ e, t.rsp = s.rsp ++ [.error e] → u.buf = s.buf)

/-- 42_pixelframe.md rule R151 (b), 20_memory.md rule R50 (a): a pixel read after its write gives the index written, and every other
pixel of the frame reads as before. -/
def Obligations.ReadAfterWrite : Prop :=
  ∀ (x y idx : Byte) (s : State), s.active = true → s.Inv →
    x.toNat < s.size.toNat → y.toNat < s.size.toNat → idx.toNat < 4 →
    ∃ t, exec (.setpx x y idx) s = .next t ∧
      exec (.getpx x y) t = .next { t with rsp := t.rsp ++ [.ok [idx]] } ∧
      ∀ x' y' : Byte, x'.toNat < s.size.toNat → y'.toNat < s.size.toNat → (x' ≠ x ∨ y' ≠ y) →
        ∃ r, exec (.getpx x' y') s = .next { s with rsp := s.rsp ++ [r] } ∧
          exec (.getpx x' y') t = .next { t with rsp := t.rsp ++ [r] }

/-- 42_pixelframe.md rule R151 (a), (c): all indices after `CONSTRUCT` are 0 and after `FRESET k` are k. -/
def Obligations.FreshAndFilledFrames : Prop :=
  (∀ (size : Byte) (s : State), ∃ t, exec (.construct size) s = .next t ∧
    exec .getidx t = .next { t with rsp := t.rsp ++ [.ok (List.replicate (size.toNat * size.toNat) 0)] } ∧
    exec .getraw t = .next { t with rsp := t.rsp ++ [.ok (List.replicate ((size.toNat * size.toNat + 3) / 4) 0)] }) ∧
  (∀ (k : Byte) (s : State), s.active = true → k.toNat < 4 → ∃ t, exec (.freset k) s = .next t ∧
    exec .getidx t = .next { t with rsp := t.rsp ++ [.ok (List.replicate (s.size.toNat * s.size.toNat) k)] })

/-- 42_pixelframe.md rule R151 (d), (e): `GETCOL` is `GETIDX` mapped through the palette, and `GETIDX[p]` is field `p mod 4` of
`GETRAW[p div 4]`. -/
def Obligations.BulkReadsAgree : Prop :=
  ∀ s : State, s.active = true → ∃ (raw : List Byte) (is : List Index),
    exec .getraw s = .next { s with rsp := s.rsp ++ [.ok raw] } ∧
    exec .getidx s = .next { s with rsp := s.rsp ++ [.ok (is.map fun i => i.setWidth 8)] } ∧
    exec .getcol s = .next { s with rsp := s.rsp ++ [.ok (is.flatMap fun i => colorBytes (PAL i))] } ∧
    is.length = (totalPixels s.size).toNat ∧
    ∀ p < is.length, is[p]? = (raw[p / 4]?).map fun b => indexAt b (BitVec.ofNat 2 (p % 4))

/-- 42_pixelframe.md rule R152: the empty frame. -/
def Obligations.EmptyFrameBehaviour : Prop :=
  ∀ s : State, ∃ t, exec (.construct 0) s = .next t ∧ t.active = true ∧ t.size = 0 ∧
    (∀ x y idx : Byte, exec (.setpx x y idx) t = .next { t with rsp := t.rsp ++ [.error .coordinatesOutOfBounds] }) ∧
    (∀ x y : Byte, exec (.getpx x y) t = .next { t with rsp := t.rsp ++ [.error .coordinatesOutOfBounds] }) ∧
    (∀ (x y : Byte) (i : Index),
      exec (.setpxc x y (PAL i)) t = .next { t with rsp := t.rsp ++ [.error .coordinatesOutOfBounds] }) ∧
    (∀ x y : Byte, exec (.getpxc x y) t = .next { t with rsp := t.rsp ++ [.error .coordinatesOutOfBounds] }) ∧
    (∀ i ∈ [Instr.getraw, .getidx, .getcol], exec i t = .next { t with rsp := t.rsp ++ [.ok []] }) ∧
    (∀ fill : Byte, fill.toNat < 4 →
      exec (.freset fill) t = .next { t with rsp := t.rsp ++ [.ok []], evt := t.evt ++ [.frameReset] }) ∧
    (exec (.batch [] [] []) t = .next { t with rsp := t.rsp ++ [.ok []], evt := t.evt ++ [.batchSet 0] }) ∧
    (∀ xs ys ids : List Byte, xs ≠ [] → xs.length = ys.length → ys.length = ids.length →
      exec (.batch xs ys ids) t = .next { t with rsp := t.rsp ++ [.error .coordinatesOutOfBounds] })

/-- 10_state.md rule R28: the padding fields of the last byte, positions at or beyond `TOTALPIXELS`, are changed by no command but
`CONSTRUCT` and `FRESET`. -/
def Obligations.PaddingFieldsChangeOnlyByConstructAndFreset : Prop :=
  ∀ (i : Instr) (s t : State), s.Inv → exec i s = .next t → i.opcode ≠ .construct → i.opcode ≠ .freset →
    ∀ p : Nat, (totalPixels s.size).toNat ≤ p →
      indexAt (t.byteAt (p / 4)) (BitVec.ofNat 2 (p % 4)) = indexAt (s.byteAt (p / 4)) (BitVec.ofNat 2 (p % 4))
end

