-- ==== Sys2Proof/Laws/Memory.lean ====
section
/-! SUPPORT. The cells of BUF: every operation keeps the canonical form, a read after a write, what a fill leaves, and the
one-pass byte list as the list of single reads. -/

namespace Sys2Proof.Machine

theorem Memory.wfFrom_cons {lo k : Nat} {b : Byte} {t : List Host.Cell} :
    Memory.wfFrom lo ((k, b) :: t) = true ↔ lo ≤ k ∧ b ≠ 0 ∧ Memory.wfFrom (k + 1) t = true := by
  simp only [Memory.wfFrom, Bool.and_eq_true, decide_eq_true_eq, and_assoc]

/-- The canonical form from a higher offset is one from a lower offset. -/
theorem Memory.wfFrom_mono {lo hi : Nat} (h : lo ≤ hi) :
    ∀ {m : List Host.Cell}, Memory.wfFrom hi m = true → Memory.wfFrom lo m = true
  | [], _ => rfl
  | (k, b) :: t, hw => by
    rw [Memory.wfFrom_cons] at hw ⊢
    exact ⟨by omega, hw.2⟩

/-- Below its first possible cell a canonical memory reads 0x00. -/
theorem Memory.read_below {lo a : Nat} (h : a < lo) :
    ∀ {m : List Host.Cell}, Memory.wfFrom lo m = true → Memory.read m a = 0
  | [], _ => rfl
  | (k, b) :: t, hw => by
    have h1 := (Memory.wfFrom_cons.mp hw).1
    simp [Memory.read, show ¬ k < a by omega, show k ≠ a by omega]

theorem Memory.cons_wfFrom {lo a : Nat} {v : Byte} {t : List Host.Cell} (h : lo ≤ a)
    (ht : Memory.wfFrom (a + 1) t = true) : Memory.wfFrom lo (Memory.cons a v t) = true := by
  unfold Memory.cons
  split
  · exact Memory.wfFrom_mono (by omega) ht
  · next hv => exact Memory.wfFrom_cons.mpr ⟨h, hv, ht⟩

theorem Memory.write_wfFrom {a : Nat} (v : Byte) :
    ∀ {m : List Host.Cell} {lo : Nat}, lo ≤ a → Memory.wfFrom lo m = true →
      Memory.wfFrom lo (Memory.write m a v) = true
  | [], _, h, _ => Memory.cons_wfFrom h rfl
  | (k, b) :: t, lo, h, hw => by
    obtain ⟨h1, h2, h3⟩ := Memory.wfFrom_cons.mp hw
    unfold Memory.write
    split
    · exact Memory.wfFrom_cons.mpr ⟨h1, h2, Memory.write_wfFrom v (by omega) h3⟩
    · split
      · next he => exact Memory.cons_wfFrom h (he ▸ h3)
      · exact Memory.cons_wfFrom h (Memory.wfFrom_cons.mpr ⟨by omega, h2, h3⟩)

/-- A write keeps the canonical form. -/
theorem Memory.write_wf {m : List Host.Cell} (a : Nat) (v : Byte) (h : Memory.wf m = true) :
    Memory.wf (Memory.write m a v) = true := Memory.write_wfFrom v (Nat.zero_le _) h

theorem Memory.read_cons_same {a : Nat} {v : Byte} {t : List Host.Cell}
    (ht : Memory.wfFrom (a + 1) t = true) : Memory.read (Memory.cons a v t) a = v := by
  unfold Memory.cons
  split
  · next hv => rw [hv, Memory.read_below (by omega) ht]
  · simp [Memory.read]

theorem Memory.read_cons_other {a c : Nat} {v : Byte} {t : List Host.Cell} (h : c ≠ a)
    (ht : Memory.wfFrom (a + 1) t = true) : Memory.read (Memory.cons a v t) c = Memory.read t c := by
  unfold Memory.cons
  split
  · rfl
  · by_cases hc : a < c
    · simp [Memory.read, hc]
    · rw [Memory.read_below (show c < a + 1 by omega) ht]
      simp [Memory.read, hc, show a ≠ c by omega]

theorem Memory.read_writeFrom {a c : Nat} (v : Byte) :
    ∀ {m : List Host.Cell} {lo : Nat}, Memory.wfFrom lo m = true →
      Memory.read (Memory.write m a v) c = if c = a then v else Memory.read m c
  | [], _, _ => by
    unfold Memory.write
    split
    · next h => rw [h, Memory.read_cons_same rfl]
    · next h => rw [Memory.read_cons_other h rfl]
  | (k, b) :: t, lo, hw => by
    obtain ⟨h1, h2, h3⟩ := Memory.wfFrom_cons.mp hw
    have hk : ¬ k < a → k ≠ a → Memory.wfFrom (a + 1) ((k, b) :: t) = true := by
      intro _ _; exact Memory.wfFrom_cons.mpr ⟨by omega, h2, h3⟩
    unfold Memory.write
    split
    · next hka =>
      simp only [Memory.read]
      by_cases hkc : k < c
      · rw [if_pos hkc, if_pos hkc, Memory.read_writeFrom v h3]
      · simp [hkc, show c ≠ a by omega]
    · next hka =>
      split
      · next he =>
        subst he
        by_cases hc : c = k
        · simp [hc, Memory.read_cons_same h3]
        · rw [Memory.read_cons_other hc h3, if_neg hc]
          by_cases hkc : k < c
          · simp [Memory.read, hkc]
          · rw [Memory.read_below (show c < k + 1 by omega) h3]
            simp [Memory.read, hkc, show k ≠ c by omega]
      · next hne =>
        by_cases hc : c = a
        · rw [hc, Memory.read_cons_same (hk hka hne), if_pos rfl]
        · rw [Memory.read_cons_other hc (hk hka hne), if_neg hc]

/-- A read after a write: the written byte at its offset, the old byte everywhere else. -/
theorem Memory.read_write {m : List Host.Cell} (h : Memory.wf m = true) (a c : Nat) (v : Byte) :
    Memory.read (Memory.write m a v) c = if c = a then v else Memory.read m c :=
  Memory.read_writeFrom v h

theorem Memory.mem_cons {a : Nat} {v : Byte} {t : List Host.Cell} {c : Host.Cell}
    (h : c ∈ Memory.cons a v t) : c.1 = a ∨ c ∈ t := by
  unfold Memory.cons at h
  split at h
  · exact .inr h
  · rcases List.mem_cons.mp h with h | h
    · exact .inl (by rw [h])
    · exact .inr h

/-- A write adds no cell at any offset but its own. -/
theorem Memory.mem_write {a : Nat} {v : Byte} {c : Host.Cell} :
    ∀ {m : List Host.Cell}, c ∈ Memory.write m a v → c.1 = a ∨ c ∈ m
  | [], h => Memory.mem_cons h
  | (k, b) :: t, h => by
    unfold Memory.write at h
    split at h
    · rcases List.mem_cons.mp h with h | h
      · exact .inr (by simp [h])
      · exact (Memory.mem_write h).imp id (List.mem_cons_of_mem _)
    · split at h
      · exact (Memory.mem_cons h).imp id (List.mem_cons_of_mem _)
      · exact Memory.mem_cons h

/-! ## Filling -/

theorem Memory.map_range'_wf {v : Byte} (hv : v ≠ 0) :
    ∀ (n a lo : Nat), lo ≤ a → Memory.wfFrom lo ((List.range' a n).map fun c => (c, v)) = true
  | 0, _, _, _ => rfl
  | n + 1, a, lo, h => by
    rw [List.range'_succ, List.map_cons, Memory.wfFrom_cons]
    exact ⟨h, hv, Memory.map_range'_wf hv n (a + 1) (a + 1) (Nat.le_refl _)⟩

/-- A fill is in canonical form. -/
theorem Memory.fill_wf (n : Nat) (v : Byte) : Memory.wf (Memory.fill n v) = true := by
  unfold Memory.fill
  split
  · rfl
  · next hv => rw [List.range_eq_range']; exact Memory.map_range'_wf hv n 0 0 (Nat.le_refl _)

theorem Memory.read_map_range' (v : Byte) (c : Nat) :
    ∀ (n a : Nat), Memory.read ((List.range' a n).map fun k => (k, v)) c = if a ≤ c ∧ c < a + n then v else 0
  | 0, a => by simp [Memory.read]
  | n + 1, a => by
    simp only [List.range'_succ, List.map_cons, Memory.read, Memory.read_map_range' v c n (a + 1)]
    split
    · next h => exact if_congr (by omega) rfl rfl
    · split
      · rw [if_pos (by omega)]
      · rw [if_neg (by omega)]

/-- After a fill every offset below its length reads the fill byte. -/
theorem Memory.read_fill (n : Nat) (v : Byte) (a : Nat) :
    Memory.read (Memory.fill n v) a = if a < n then v else 0 := by
  unfold Memory.fill
  split
  · next h => simp [Memory.read, h]
  · rw [List.range_eq_range', Memory.read_map_range']; simp

/-- A fill has cells only below its length. -/
theorem Memory.mem_fill {n : Nat} {v : Byte} {c : Host.Cell} (h : c ∈ Memory.fill n v) : c.1 < n := by
  unfold Memory.fill at h
  split at h
  · simp at h
  · obtain ⟨a, ha, rfl⟩ := List.mem_map.mp h
    exact List.mem_range.mp ha

/-! ## The byte list -/

theorem Memory.bytes_eq_map : ∀ (m : List Host.Cell) (a n : Nat),
    Memory.bytes m a n = (List.range' a n).map (Memory.read m)
  | [], a, n => by
    simp only [Memory.bytes]
    exact (List.ext_getElem (by simp) (by simp [Memory.read]))
  | (k, b) :: t, a, n => by
    have zero : ∀ c, c < k → Memory.read ((k, b) :: t) c = 0 := by
      intro c hc; simp [Memory.read, show ¬ k < c by omega, show k ≠ c by omega]
    have after : ∀ c, k < c → Memory.read ((k, b) :: t) c = Memory.read t c := by
      intro c hc; simp [Memory.read, hc]
    unfold Memory.bytes
    split
    · next h =>
      rw [Memory.bytes_eq_map t a n]
      refine List.map_congr_left fun c hc => (after c ?_).symm
      have := (List.mem_range'_1.mp hc).1; omega
    · split
      · refine List.ext_getElem (by simp) fun i h1 h2 => ?_
        simp only [List.length_replicate] at h1
        simp only [List.getElem_replicate, List.getElem_map, List.getElem_range', Nat.one_mul]
        exact (zero _ (by omega)).symm
      · next h1 h2 =>
        have hn : n = (k - a) + (1 + (n - (k - a) - 1)) := by omega
        conv_rhs => rw [hn, ← List.range'_append_1, List.map_append, show a + (k - a) = k by omega,
          Nat.add_comm 1, List.range'_succ, List.map_cons]
        congr 1
        · refine List.ext_getElem (by simp) fun i h1 h2 => ?_
          simp only [List.length_replicate] at h1
          simp only [List.getElem_replicate, List.getElem_map, List.getElem_range', Nat.one_mul]
          exact (zero _ (by omega)).symm
        · congr 1
          · simp [Memory.read]
          · rw [Memory.bytes_eq_map t]
            refine List.map_congr_left fun c hc => (after c ?_).symm
            have := (List.mem_range'_1.mp hc).1; omega

theorem Memory.bytes_length (m : List Host.Cell) (a n : Nat) : (Memory.bytes m a n).length = n := by
  simp [Memory.bytes_eq_map]

theorem Memory.bytes_getElem (m : List Host.Cell) (a n i : Nat) (h : i < (Memory.bytes m a n).length) :
    (Memory.bytes m a n)[i] = Memory.read m (a + i) := by
  simp [Memory.bytes_eq_map]

end Sys2Proof.Machine
end

