-- ==== Sys2Proof/Laws/Operands.lean ====
section
/-! SUPPORT. Small facts about operands: the test against 4, the two low bits of an operand, an index as a byte, the error-stopping
map, and the fields of a list of packed bytes. -/

namespace Sys2Proof.Machine

/-! ## Index and position operands -/

theorem atLeast4_iff (v : Byte) : atLeast4 v = true ↔ 4 ≤ v.toNat := by simp [atLeast4]

theorem atLeast4_eq_false_iff (v : Byte) : atLeast4 v = false ↔ v.toNat < 4 := by simp [atLeast4]

/-- An operand with the value of an index is reduced to that index. -/
theorem low2_of_toNat_eq {v : Byte} {i : Index} (h : v.toNat = i.toNat) : low2 v = i := by
  apply BitVec.eq_of_toNat_eq
  have := i.isLt
  simp [low2, h]; omega

/-- Reducing an operand below 4 to two bits loses nothing. -/
theorem indexByte_low2 {v : Byte} (h : v.toNat < 4) : indexByte (low2 v) = v := by
  apply BitVec.eq_of_toNat_eq
  simp [indexByte, low2]; omega

theorem low2_toNat {v : Byte} (h : v.toNat < 4) : (low2 v).toNat = v.toNat := by simp [low2]; omega

theorem indexByte_toNat (i : Index) : (indexByte i).toNat = i.toNat := by
  have := i.isLt
  simp [indexByte]; omega

/-! ## The error-stopping map -/

/-- Where no element raises, the map is the plain map. -/
theorem mapUntilError_of_forall_ok {α β : Type} (f : α → Except CmdError β) (g : α → β) :
    ∀ l : List α, (∀ a ∈ l, f a = .ok (g a)) → mapUntilError f l = .ok (l.map g)
  | [], _ => rfl
  | a :: t, h => by
    simp [mapUntilError, h a (by simp), mapUntilError_of_forall_ok f g t (fun x hx => h x (by simp [hx]))]

/-- Where one element raises, and every element that raises raises the same error, the map raises it. -/
theorem mapUntilError_of_exists_error {α β : Type} (f : α → Except CmdError β) (e : CmdError) :
    ∀ l : List α, (∀ a ∈ l, f a = .error e ∨ ∃ b, f a = .ok b) → (∃ a ∈ l, f a = .error e) →
      mapUntilError f l = .error e
  | [], _, h => by simp at h
  | a :: t, h, ⟨c, hc, hce⟩ => by
    rcases h a (by simp) with ha | ⟨b, ha⟩
    · simp [mapUntilError, ha]
    · have ht : ∃ a ∈ t, f a = .error e := by
        rcases List.mem_cons.mp hc with rfl | hc
        · rw [ha] at hce; cases hce
        · exact ⟨c, hc, hce⟩
      simp [mapUntilError, ha, mapUntilError_of_exists_error f e t (fun x hx => h x (by simp [hx])) ht]

/-! ## The fields of a list of packed bytes -/

theorem flatMap_lanes_length : ∀ l : List Byte, (l.flatMap lanes).length = 4 * l.length
  | [] => rfl
  | b :: t => by simp [List.flatMap_cons, flatMap_lanes_length t, lanes]; omega

/-- Field `p` of the list is field `p mod 4` of byte `p div 4`. -/
theorem flatMap_lanes_getElem? : ∀ (l : List Byte) (p : Nat),
    (l.flatMap lanes)[p]? = (l[p / 4]?).map fun b => indexAt b (BitVec.ofNat 2 (p % 4))
  | [], p => by simp
  | b :: t, p => by
    rw [List.flatMap_cons, List.getElem?_append]
    split
    · next h =>
      have h : p < 4 := h
      rcases (show p = 0 ∨ p = 1 ∨ p = 2 ∨ p = 3 by omega) with rfl | rfl | rfl | rfl <;> rfl
    · next h =>
      have h : ¬ p < 4 := h
      rw [show (lanes b).length = 4 from rfl, flatMap_lanes_getElem? t,
        show p / 4 = (p - 4) / 4 + 1 by omega, show p % 4 = (p - 4) % 4 by omega]
      simp

/-! ## The checks of a pixel write -/

theorem pixelWriteError_of_not_inBounds {n x y i : Byte} (h : inBounds n x y = false) :
    pixelWriteError n x y i = some .coordinatesOutOfBounds := by simp [pixelWriteError, h]

theorem pixelWriteError_of_inBounds {n x y i : Byte} (h : inBounds n x y = true) :
    pixelWriteError n x y i = if 4 ≤ i.toNat then some .indexOutOfRange else none := by
  simp [pixelWriteError, h, atLeast4_iff]

theorem pixelWriteError_eq_none_iff {n x y i : Byte} :
    pixelWriteError n x y i = none ↔ inBounds n x y = true ∧ i.toNat < 4 := by
  unfold pixelWriteError
  by_cases h : inBounds n x y = true <;> simp [h, atLeast4_iff]

end Sys2Proof.Machine
end

