-- ==== Sys2Proof/Laws/State.lean ====
section
/-! SUPPORT. One lemma per field of State for each named update, so that no later proof unfolds a record update. -/

namespace Sys2Proof.Machine

section Reply
variable (r : Response) (s : State)
@[simp] theorem State.reply_active : (s.reply r).active = s.active := rfl
@[simp] theorem State.reply_size : (s.reply r).size = s.size := rfl
@[simp] theorem State.reply_buf : (s.reply r).buf = s.buf := rfl
@[simp] theorem State.reply_cmd : (s.reply r).cmd = s.cmd := rfl
@[simp] theorem State.reply_rsp : (s.reply r).rsp = s.rsp ++ [r] := rfl
@[simp] theorem State.reply_evt : (s.reply r).evt = s.evt := rfl
end Reply

section Emit
variable (p : Params) (e : Event) (s : State)
@[simp] theorem State.emit_active : (s.emit p e).active = s.active := by unfold State.emit; split <;> rfl
@[simp] theorem State.emit_size : (s.emit p e).size = s.size := by unfold State.emit; split <;> rfl
@[simp] theorem State.emit_buf : (s.emit p e).buf = s.buf := by unfold State.emit; split <;> rfl
@[simp] theorem State.emit_cmd : (s.emit p e).cmd = s.cmd := by unfold State.emit; split <;> rfl
@[simp] theorem State.emit_rsp : (s.emit p e).rsp = s.rsp := by unfold State.emit; split <;> rfl
@[simp] theorem State.emit_evt : (s.emit p e).evt = s.evt ++ (if p.events then [e] else []) := by
  unfold State.emit; split <;> simp
end Emit

section Rst
variable (s : State)
@[simp] theorem State.assertRst_active : s.assertRst.active = false := rfl
@[simp] theorem State.assertRst_size : s.assertRst.size = 0 := rfl
@[simp] theorem State.assertRst_buf : s.assertRst.buf = [] := rfl
@[simp] theorem State.assertRst_cmd : s.assertRst.cmd = s.cmd := rfl
@[simp] theorem State.assertRst_rsp : s.assertRst.rsp = s.rsp := rfl
@[simp] theorem State.assertRst_evt : s.assertRst.evt = s.evt := rfl
end Rst

section SendFirst
variable (bs : List Byte) (s : State)
@[simp] theorem State.sendFirst_active : (s.sendFirst bs).active = s.active := rfl
@[simp] theorem State.sendFirst_size : (s.sendFirst bs).size = s.size := rfl
@[simp] theorem State.sendFirst_buf : (s.sendFirst bs).buf = s.buf := rfl
@[simp] theorem State.sendFirst_cmd : (s.sendFirst bs).cmd = bs.map .send ++ s.cmd := rfl
@[simp] theorem State.sendFirst_rsp : (s.sendFirst bs).rsp = s.rsp := rfl
@[simp] theorem State.sendFirst_evt : (s.sendFirst bs).evt = s.evt := rfl
end SendFirst

end Sys2Proof.Machine
end

