-- ==== Sys2Proof/Laws/Ops.lean ====
section
/-! SUPPORT. What each shared operation of Machine/Ops.lean can do, said once: the BUF accesses inside and outside the frame, the
check of `ACTIVE`, the ends of a command, the bulk lists, and the loop of a batch. -/

namespace Sys2Proof.Machine

/-! ## BUF accesses -/

theorem memRead_eq (a : BitVec 14) (s : State) :
    memRead a s = if a.toNat < (totalBytes s.size).toNat then .ok (Memory.read s.buf a.toNat)
      else .error (.bufOffset a.toNat) := rfl

theorem memWrite_eq (a : BitVec 14) (v : Byte) (s : State) :
    memWrite a v s = if a.toNat < (totalBytes s.size).toNat
      then .ok { s with buf := Memory.write s.buf a.toNat v } else .error (.bufOffset a.toNat) := rfl

/-- A pixel read inside BUF gives the field and faults nowhere. -/
theorem pixRead_of_lt {a : BitVec 14} {k : Index} {s : State} (h : a.toNat < (totalBytes s.size).toNat) :
    pixRead a k s = .ok (indexAt (Memory.read s.buf a.toNat) k) := by
  simp [pixRead, memRead_eq, h]

/-- A pixel write inside BUF replaces the field and changes no other field of the state. -/
theorem pixWrite_of_lt {a : BitVec 14} {k v : Index} {s : State} (h : a.toNat < (totalBytes s.size).toNat) :
    pixWrite a k v s =
      .ok { s with buf := Memory.write s.buf a.toNat (setIndexAt (Memory.read s.buf a.toNat) k v) } := by
  simp [pixWrite, memRead_eq, memWrite_eq, h]

/-- All a pixel write can do: it answers only inside BUF, and then changes one byte of BUF and nothing else. -/
theorem pixWrite_cases {a : BitVec 14} {k v : Index} {s t : State} (h : pixWrite a k v s = .ok t) :
    a.toNat < (totalBytes s.size).toNat ∧
      t = { s with buf := Memory.write s.buf a.toNat (setIndexAt (Memory.read s.buf a.toNat) k v) } := by
  by_cases hlt : a.toNat < (totalBytes s.size).toNat
  · rw [pixWrite_of_lt hlt] at h
    exact ⟨hlt, (Except.ok.inj h).symm⟩
  · simp [pixWrite, memRead_eq, hlt] at h

/-! ## The check of `ACTIVE` and the ends of a command -/

theorem requireActive_of_active {s : State} {k : Host.Outcome State Fault Refusal} (h : s.active = true) :
    requireActive s k = k := by simp [requireActive, h]

theorem requireActive_of_inactive {s : State} {k : Host.Outcome State Fault Refusal} (h : s.active = false) :
    requireActive s k = .next (s.reply (.error .notActive)) := by simp [requireActive, h, raise]

theorem orFault_ok {α : Type} (a : α) (k : α → Host.Outcome State Fault Refusal) : orFault (.ok a) k = k a := rfl

/-- Ending a pure command: one response, nothing else. -/
theorem answer_cases (r : Except CmdError (List Byte)) (s : State) :
    (∃ d, r = .ok d ∧ answer r s = .next (s.reply (.ok d))) ∨
      (∃ e, r = .error e ∧ answer r s = .next (s.reply (.error e))) := by
  cases r with
  | ok d => exact .inl ⟨d, rfl, rfl⟩
  | error e => exact .inr ⟨e, rfl, rfl⟩

/-! ## The bulk lists -/

theorem bufBytes_length (s : State) : (bufBytes s).length = (totalBytes s.size).toNat := Memory.bytes_length _ _ _

theorem bufBytes_getElem? {s : State} {a : Nat} (h : a < (totalBytes s.size).toNat) :
    (bufBytes s)[a]? = some (Memory.read s.buf a) := by
  have ha : a < (bufBytes s).length := by rwa [bufBytes_length]
  rw [List.getElem?_eq_getElem ha]
  simp only [bufBytes, Memory.bytes_getElem, Nat.zero_add]

theorem allIndices_getElem? {s : State} {p : Nat} (h : p < (totalPixels s.size).toNat)
    (hb : p / 4 < (totalBytes s.size).toNat) :
    (allIndices s)[p]? = some (indexAt (Memory.read s.buf (p / 4)) (BitVec.ofNat 2 (p % 4))) := by
  rw [allIndices, List.getElem?_take, if_pos h, flatMap_lanes_getElem?, bufBytes_getElem? hb]; rfl

/-! ## The loop of a batch -/

theorem batchLoop_nil (s : State) : batchLoop [] s = .ok (s, none) := rfl

/-- The loop stops at an element that fails a check, with the state it has reached. -/
theorem batchLoop_cons_error {x y i : Byte} {t : List Triple} {s : State} {e : CmdError}
    (h : pixelWriteError s.size x y i = some e) : batchLoop ((x, y, i) :: t) s = .ok (s, some e) := by
  simp [batchLoop, h]

/-- All the loop can do to the state: it changes BUF alone. -/
theorem batchLoop_frame : ∀ (l : List Triple) (s t : State) (r : Option CmdError), batchLoop l s = .ok (t, r) →
    t = { s with buf := t.buf }
  | [], s, t, r, h => by cases h; rfl
  | (x, y, i) :: l, s, t, r, h => by
    unfold batchLoop at h
    split at h
    · cases h; rfl
    · dsimp only at h
      split at h
      · cases h
      · next u hu =>
        have hl := batchLoop_frame l u t r h
        rw [hl, (pixWrite_cases hu).2]

end Sys2Proof.Machine
end

