-- ==== Sys2Proof/Laws/PerInstr.lean ====
section
/-! SUPPORT. Per-instruction family `OpcodeByte`: the first byte of an instruction's encoding is its opcode byte, and the decoder's
opcode map reads that byte back as the same command (30_encoding.md rule R64). -/

namespace Sys2Proof.Laws

/-- The encoding starts with the opcode byte, which the opcode map reads back. -/
def OpcodeByte.Statement (i : Instr) : Prop :=
  (encode i).head? = some i.opcode.byte ∧ Opcode.ofByte i.opcode.byte = some i.opcode

theorem OpcodeByte.pack (r g b : Byte) : OpcodeByte.Statement (.pack r g b) := ⟨rfl, rfl⟩
theorem OpcodeByte.unpack (c : Color) : OpcodeByte.Statement (.unpack c) := ⟨rfl, rfl⟩
theorem OpcodeByte.cidx (c : Color) : OpcodeByte.Statement (.cidx c) := ⟨rfl, rfl⟩
theorem OpcodeByte.cfromidx (idx : Byte) : OpcodeByte.Statement (.cfromidx idx) := ⟨rfl, rfl⟩
theorem OpcodeByte.packidx (idxs : List Byte) : OpcodeByte.Statement (.packidx idxs) := ⟨rfl, rfl⟩
theorem OpcodeByte.unpackidx (byte : Byte) : OpcodeByte.Statement (.unpackidx byte) := ⟨rfl, rfl⟩
theorem OpcodeByte.idxat (byte pos : Byte) : OpcodeByte.Statement (.idxat byte pos) := ⟨rfl, rfl⟩
theorem OpcodeByte.setidxat (byte pos idx : Byte) : OpcodeByte.Statement (.setidxat byte pos idx) := ⟨rfl, rfl⟩
theorem OpcodeByte.c2i (cs : List Color) : OpcodeByte.Statement (.c2i cs) := ⟨rfl, rfl⟩
theorem OpcodeByte.i2c (idxs : List Byte) : OpcodeByte.Statement (.i2c idxs) := ⟨rfl, rfl⟩
theorem OpcodeByte.construct (size : Byte) : OpcodeByte.Statement (.construct size) := ⟨rfl, rfl⟩
theorem OpcodeByte.setpx (x y idx : Byte) : OpcodeByte.Statement (.setpx x y idx) := ⟨rfl, rfl⟩
theorem OpcodeByte.getpx (x y : Byte) : OpcodeByte.Statement (.getpx x y) := ⟨rfl, rfl⟩
theorem OpcodeByte.setpxc (x y : Byte) (c : Color) : OpcodeByte.Statement (.setpxc x y c) := ⟨rfl, rfl⟩
theorem OpcodeByte.getpxc (x y : Byte) : OpcodeByte.Statement (.getpxc x y) := ⟨rfl, rfl⟩
theorem OpcodeByte.getraw : OpcodeByte.Statement .getraw := ⟨rfl, rfl⟩
theorem OpcodeByte.getidx : OpcodeByte.Statement .getidx := ⟨rfl, rfl⟩
theorem OpcodeByte.getcol : OpcodeByte.Statement .getcol := ⟨rfl, rfl⟩
theorem OpcodeByte.freset (fill : Byte) : OpcodeByte.Statement (.freset fill) := ⟨rfl, rfl⟩
theorem OpcodeByte.batch (xs ys ids : List Byte) : OpcodeByte.Statement (.batch xs ys ids) := ⟨rfl, rfl⟩

end Sys2Proof.Laws
end

