-- ==== Sys2Proof/Laws/Step.lean ====
section
/-! SUPPORT. Cutting CMD at the next RST, and what a step is for each thing the block can fetch. -/

namespace Sys2Proof.Machine

theorem bytesBeforeRst_send_append (bs : List Byte) (t : List HostAction) :
    bytesBeforeRst (bs.map .send ++ t) = bs ++ bytesBeforeRst t := by
  induction bs with
  | nil => rfl
  | cons b u ih => simp only [List.map_cons, List.cons_append, bytesBeforeRst, ih]

theorem fromRst_send_append (bs : List Byte) (t : List HostAction) : fromRst (bs.map .send ++ t) = fromRst t := by
  induction bs with
  | nil => rfl
  | cons b u ih => simp only [List.map_cons, List.cons_append, fromRst, ih]

/-- Cutting CMD at the next RST loses nothing. -/
theorem bytesBeforeRst_append_fromRst : ∀ q : List HostAction, (bytesBeforeRst q).map .send ++ fromRst q = q
  | [] => rfl
  | .rst :: _ => rfl
  | .send b :: t => congrArg (HostAction.send b :: ·) (bytesBeforeRst_append_fromRst t)

/-- What stands from the next RST on is nothing or starts with that RST. -/
theorem fromRst_cases : ∀ q : List HostAction, fromRst q = [] ∨ ∃ t, fromRst q = .rst :: t
  | [] => .inl rfl
  | .rst :: t => .inr ⟨t, rfl⟩
  | .send _ :: t => fromRst_cases t

/-- All a step can be: waiting, RST, a reserved opcode, or one command. -/
theorem step_cases (s : State) :
    (fetch s.cmd = .wait ∧ step s = .next s) ∨
    (∃ q, fetch s.cmd = .rst q ∧ step s = .next { s with active := false, size := 0, buf := [], cmd := q }) ∨
    (∃ q, fetch s.cmd = .illegal q ∧
      step s = .next { s with cmd := q, rsp := s.rsp ++ [.error .illegalCommand] }) ∨
    (∃ i q, fetch s.cmd = .run i q ∧ step s = exec i { s with cmd := q }) := by
  unfold step
  cases fetch s.cmd with
  | wait => exact .inl ⟨rfl, rfl⟩
  | rst q => exact .inr (.inl ⟨q, rfl, rfl⟩)
  | illegal q => exact .inr (.inr (.inl ⟨q, rfl, rfl⟩))
  | run i q => exact .inr (.inr (.inr ⟨i, q, rfl, rfl⟩))

end Sys2Proof.Machine
end

