-- ==== Sys2Proof/Tests/Slice0.lean ====
section
/-! SUPPORT. The model's own tests. Expected values are those of 95_test_vectors.md and of the examples in the command rules, or
worked out by hand from the encoding table of 30_encoding.md; each test names its source. Then one witness theorem per
obligation with hypotheses. -/

open Sys2Proof Sys2Proof.Machine

/-! ## Helpers -/

/-- An active frame of side `n` with these cells of BUF. -/
def frame (n : Byte) (cells : List Host.Cell) : State := { State.reset with active := true, size := n, buf := cells }

/-- What one step shows when these bytes stand on CMD: the bytes on RSP, BUF, and the bytes on EVT. -/
def shown (s : State) (bs : List Byte) : Option (List Byte × List Byte × List Byte) :=
  match step (s.sendFirst bs) with
  | .next t => some (t.rspBytes, bufBytes t, t.evtBytes)
  | .fault _ => none
  | .refused _ => none

/-- What one step answers when these bytes stand on CMD. -/
def answered (s : State) (bs : List Byte) : Option (List Byte) :=
  match step (s.sendFirst bs) with
  | .next t => some t.rspBytes
  | .fault _ => none
  | .refused _ => none

/-- What one step leaves on CMD, as bytes, when these bytes stand there. -/
def leftOver (s : State) (bs : List Byte) : Option (List HostAction) :=
  match step (s.sendFirst bs) with
  | .next t => some t.cmd
  | .fault _ => none
  | .refused _ => none

/-- The 3x3 frame of vector V-F3 after its row 5, holding `55 55 56`. -/
def frame3 : State := frame 3 [(0, 0x55), (1, 0x55), (2, 0x56)]

/-! ## WellFormed refuses every kind of ill-formed term (30_encoding.md rules R61, R78) -/

theorem test_wellFormed_packidx_256 : ¬ (Instr.packidx (List.replicate 256 0)).WellFormed := by
  simp only [Instr.WellFormed, Instr.wellFormed, fitsCount, Config.maxCount, List.length_replicate]; decide
theorem test_wellFormed_c2i_256 : ¬ (Instr.c2i (List.replicate 256 0)).WellFormed := by
  simp only [Instr.WellFormed, Instr.wellFormed, fitsCount, Config.maxCount, List.length_replicate]; decide
theorem test_wellFormed_i2c_256 : ¬ (Instr.i2c (List.replicate 256 0)).WellFormed := by
  simp only [Instr.WellFormed, Instr.wellFormed, fitsCount, Config.maxCount, List.length_replicate]; decide
theorem test_wellFormed_batch_xs_256 : ¬ (Instr.batch (List.replicate 256 0) [] []).WellFormed := by
  simp only [Instr.WellFormed, Instr.wellFormed, fitsCount, Config.maxCount, List.length_replicate]; decide
theorem test_wellFormed_batch_ys_256 : ¬ (Instr.batch [] (List.replicate 256 0) []).WellFormed := by
  simp only [Instr.WellFormed, Instr.wellFormed, fitsCount, Config.maxCount, List.length_replicate]; decide
theorem test_wellFormed_batch_ids_256 : ¬ (Instr.batch [] [] (List.replicate 256 0)).WellFormed := by
  simp only [Instr.WellFormed, Instr.wellFormed, fitsCount, Config.maxCount, List.length_replicate]; decide
theorem test_wellFormed_batch_255 :
    (Instr.batch (List.replicate 255 0) (List.replicate 255 0) (List.replicate 255 0)).WellFormed := by
  simp only [Instr.WellFormed, Instr.wellFormed, fitsCount, Config.maxCount, List.length_replicate]; decide

/-! ## Decoding: for every command a word written out from its encoding (30_encoding.md rules R61, R63, R64) -/

/-- W2. The byte after the command is left. -/
theorem test_decode_pack : decode ([0x01, 0xFF, 0x80, 0x40] ++ [0x25]) = .cmd (.pack 255 128 64) [0x25] := by decide
theorem test_encode_pack : encode (.pack 255 128 64) = [0x01, 0xFF, 0x80, 0x40] := by decide
/-- V-C8. The byte after the command is left. -/
theorem test_decode_unpack : decode ([0x02, 0x12, 0x34, 0x56] ++ [0x25]) = .cmd (.unpack 0x123456) [0x25] := by decide
theorem test_encode_unpack : encode (.unpack 0x123456) = [0x02, 0x12, 0x34, 0x56] := by decide
/-- V-P3. The byte after the command is left. -/
theorem test_decode_cidx : decode ([0x10, 0x8C, 0x1C, 0x84] ++ [0x25]) = .cmd (.cidx 0x8C1C84) [0x25] := by decide
theorem test_encode_cidx : encode (.cidx 0x8C1C84) = [0x10, 0x8C, 0x1C, 0x84] := by decide
/-- V-P8. The byte after the command is left. -/
theorem test_decode_cfromidx : decode ([0x11, 0xFF] ++ [0x25]) = .cmd (.cfromidx 255) [0x25] := by decide
theorem test_encode_cfromidx : encode (.cfromidx 255) = [0x11, 0xFF] := by decide
/-- V-P13. The byte after the command is left. -/
theorem test_decode_packidx : decode ([0x12, 0x04, 0x03, 0x03, 0x00, 0x01] ++ [0x25]) = .cmd (.packidx [3, 3, 0, 1]) [0x25] := by decide
theorem test_encode_packidx : encode (.packidx [3, 3, 0, 1]) = [0x12, 0x04, 0x03, 0x03, 0x00, 0x01] := by decide
/-- V-P17. The byte after the command is left. -/
theorem test_decode_unpackidx : decode ([0x13, 0x1B] ++ [0x25]) = .cmd (.unpackidx 0x1B) [0x25] := by decide
theorem test_encode_unpackidx : encode (.unpackidx 0x1B) = [0x13, 0x1B] := by decide
/-- V-P21. The byte after the command is left. -/
theorem test_decode_idxat : decode ([0x14, 0xE4, 0x02] ++ [0x25]) = .cmd (.idxat 0xE4 2) [0x25] := by decide
theorem test_encode_idxat : encode (.idxat 0xE4 2) = [0x14, 0xE4, 0x02] := by decide
/-- V-P25. The byte after the command is left. -/
theorem test_decode_setidxat : decode ([0x15, 0xE4, 0x01, 0x03] ++ [0x25]) = .cmd (.setidxat 0xE4 1 3) [0x25] := by decide
theorem test_encode_setidxat : encode (.setidxat 0xE4 1 3) = [0x15, 0xE4, 0x01, 0x03] := by decide
/-- V-P30. The byte after the command is left. -/
theorem test_decode_c2i : decode ([0x16, 0x02, 0xFF, 0xFF, 0xFF, 0x45, 0xA2, 0xF8] ++ [0x25]) = .cmd (.c2i [0xFFFFFF, 0x45A2F8]) [0x25] := by decide
theorem test_encode_c2i : encode (.c2i [0xFFFFFF, 0x45A2F8]) = [0x16, 0x02, 0xFF, 0xFF, 0xFF, 0x45, 0xA2, 0xF8] := by decide
/-- V-P33. The byte after the command is left. -/
theorem test_decode_i2c : decode ([0x17, 0x02, 0x01, 0x02] ++ [0x25]) = .cmd (.i2c [1, 2]) [0x25] := by decide
theorem test_encode_i2c : encode (.i2c [1, 2]) = [0x17, 0x02, 0x01, 0x02] := by decide
/-- V-F5. The byte after the command is left. -/
theorem test_decode_construct : decode ([0x20, 0xFF] ++ [0x25]) = .cmd (.construct 255) [0x25] := by decide
theorem test_encode_construct : encode (.construct 255) = [0x20, 0xFF] := by decide
/-- rule R64, three different operands. The byte after the command is left. -/
theorem test_decode_setpx : decode ([0x21, 0x05, 0x02, 0x03] ++ [0x25]) = .cmd (.setpx 5 2 3) [0x25] := by decide
theorem test_encode_setpx : encode (.setpx 5 2 3) = [0x21, 0x05, 0x02, 0x03] := by decide
/-- W1. The byte after the command is left. -/
theorem test_decode_getpx : decode ([0x22, 0x05, 0x02] ++ [0x25]) = .cmd (.getpx 5 2) [0x25] := by decide
theorem test_encode_getpx : encode (.getpx 5 2) = [0x22, 0x05, 0x02] := by decide
/-- rule R64, all operand bytes different. The byte after the command is left. -/
theorem test_decode_setpxc : decode ([0x23, 0x02, 0x09, 0x8C, 0x1C, 0x84] ++ [0x25]) = .cmd (.setpxc 2 9 0x8C1C84) [0x25] := by decide
theorem test_encode_setpxc : encode (.setpxc 2 9 0x8C1C84) = [0x23, 0x02, 0x09, 0x8C, 0x1C, 0x84] := by decide
/-- rule R64. The byte after the command is left. -/
theorem test_decode_getpxc : decode ([0x24, 0x01, 0x02] ++ [0x25]) = .cmd (.getpxc 1 2) [0x25] := by decide
theorem test_encode_getpxc : encode (.getpxc 1 2) = [0x24, 0x01, 0x02] := by decide
/-- rule R64. The byte after the command is left. -/
theorem test_decode_getraw : decode ([0x25] ++ [0x25]) = .cmd (.getraw) [0x25] := by decide
theorem test_encode_getraw : encode (.getraw) = [0x25] := by decide
/-- rule R64. The byte after the command is left. -/
theorem test_decode_getidx : decode ([0x26] ++ [0x25]) = .cmd (.getidx) [0x25] := by decide
theorem test_encode_getidx : encode (.getidx) = [0x26] := by decide
/-- rule R64. The byte after the command is left. -/
theorem test_decode_getcol : decode ([0x27] ++ [0x25]) = .cmd (.getcol) [0x25] := by decide
theorem test_encode_getcol : encode (.getcol) = [0x27] := by decide
/-- V-F3. The byte after the command is left. -/
theorem test_decode_freset : decode ([0x28, 0x03] ++ [0x25]) = .cmd (.freset 3) [0x25] := by decide
theorem test_encode_freset : encode (.freset 3) = [0x28, 0x03] := by decide
/-- rule R61, format FB, three different lengths. The byte after the command is left. -/
theorem test_decode_batch : decode ([0x29, 0x03, 0x02, 0x03, 0x00, 0x01, 0x02, 0x04, 0x05, 0x06, 0x07, 0x08] ++ [0x25]) = .cmd (.batch [0, 1, 2] [4, 5] [6, 7, 8]) [0x25] := by decide
theorem test_encode_batch : encode (.batch [0, 1, 2] [4, 5] [6, 7, 8]) = [0x29, 0x03, 0x02, 0x03, 0x00, 0x01, 0x02, 0x04, 0x05, 0x06, 0x07, 0x08] := by decide

/-- V-E1: reserved opcode bytes. -/
theorem test_decode_reserved : ([0x00, 0x03, 0x0F, 0x18, 0x1F, 0x2A, 0x30, 0x7F, 0x80, 0xFF] : List Byte).map
    (fun b => decode [b, 0x25]) = ([0x00, 0x03, 0x0F, 0x18, 0x1F, 0x2A, 0x30, 0x7F, 0x80, 0xFF] : List Byte).map
    (fun b => .illegal b [0x25]) := by decide

/-- V-E3: the length of a command from its first bytes. -/
theorem test_cmdLen : cmdLen [0x12] = none ∧ cmdLen [0x12, 0x09] = some 11 ∧ cmdLen [0x16, 0xFF] = some 767 ∧
    cmdLen [0x29, 0xFF, 0xFF] = none ∧ cmdLen [0x29, 0xFF, 0xFF, 0xFF] = some 769 ∧
    cmdLen [0x29, 0x03, 0x02, 0x03] = some 12 ∧ cmdLen [0x25] = some 1 ∧ cmdLen [0x23] = some 6 ∧
    cmdLen [0x99] = some 1 := by decide

/-- Rule R68: every proper prefix of a command asks for more. -/
theorem test_decode_needMore : ((List.range 12).map fun k =>
    decode (([0x29, 0x03, 0x02, 0x03, 0x00, 0x01, 0x02, 0x04, 0x05, 0x06, 0x07, 0x08] : List Byte).take k)) =
    List.replicate 12 .needMore := by decide

/-! ## Words of the opcode table, as the host numbers them -/

/-- `SETPX 5, 2, 3`: the opcode byte 0x21 in bits 7:0. -/
theorem test_tableWord_setpx : decodeTableWord 32 0x03020521 = some (.setpx 5 2 3) := by decide
set_option maxRecDepth 8000 in
/-- A `BATCH` row of one byte: every byte after the opcode is zero. -/
theorem test_tableWord_batch : decodeTableWord 8 0x29 = some (.batch [] [] []) := by decide
theorem test_tableWord_reserved : decodeTableWord 8 0x2A = none := by decide
theorem test_withFetchWord_runs_first : (match step (State.reset.withFetchWord 32 0x03020101) with
    | .next t => some (t.rspBytes, t.cmd)
    | .fault _ => none
    | .refused _ => none) = some ([0x00, 0x01, 0x02, 0x03], []) := by decide

/-! ## One step of each command -/

/-- V-C3. -/
theorem test_pack_red_is_high : answered State.reset [0x01, 0x01, 0x02, 0x03] = some [0x00, 0x01, 0x02, 0x03] := by decide
/-- V-C5. -/
theorem test_pack_blue_alone : answered State.reset [0x01, 0x00, 0x00, 0xFF] = some [0x00, 0x00, 0x00, 0xFF] := by decide
/-- V-C7. -/
theorem test_unpack_top_bit : answered State.reset [0x02, 0x80, 0x00, 0x00] = some [0x00, 0x80, 0x00, 0x00] := by decide
/-- V-C8. -/
theorem test_unpack_any_color : answered State.reset [0x02, 0x12, 0x34, 0x56] = some [0x00, 0x12, 0x34, 0x56] := by decide
/-- V-P2. -/
theorem test_cidx_black : answered State.reset [0x10, 0x00, 0x00, 0x00] = some [0x00, 0x01] := by decide
/-- V-P5. -/
theorem test_cidx_one_bit_away : answered State.reset [0x10, 0xFF, 0xFF, 0xFE] = some [0x02] := by decide
/-- Section 1.6. -/
theorem test_cfromidx_blue : answered State.reset [0x11, 0x03] = some [0x00, 0x45, 0xA2, 0xF8] := by decide
/-- V-P8. -/
theorem test_cfromidx_not_truncated : answered State.reset [0x11, 0xFF] = some [0x03] := by decide
/-- V-P13. -/
theorem test_packidx_order : answered State.reset [0x12, 0x04, 0x03, 0x03, 0x00, 0x01] = some [0x00, 0x4F] := by decide
/-- V-P14. -/
theorem test_packidx_count_before_elements : answered State.reset [0x12, 0x05, 0x09, 0x09, 0x09, 0x09, 0x09] = some [0x06] := by decide
/-- V-P17. -/
theorem test_unpackidx_order : answered State.reset [0x13, 0x1B] = some [0x00, 0x03, 0x02, 0x01, 0x00] := by decide
/-- V-P22. -/
theorem test_idxat_field : answered State.reset [0x14, 0xE4, 0x03] = some [0x00, 0x03] := by decide
/-- V-P23. -/
theorem test_idxat_first_bad_position : answered State.reset [0x14, 0xE4, 0x04] = some [0x04] := by decide
/-- V-P25. -/
theorem test_setidxat_field : answered State.reset [0x15, 0xE4, 0x01, 0x03] = some [0x00, 0xEC] := by decide
/-- V-P29. -/
theorem test_setidxat_position_before_index : answered State.reset [0x15, 0x00, 0x09, 0x09] = some [0x04] := by decide
/-- V-P30. -/
theorem test_c2i_order : answered State.reset [0x16, 0x02, 0xFF, 0xFF, 0xFF, 0x45, 0xA2, 0xF8] = some [0x00, 0x00, 0x03] := by decide
/-- V-P31. -/
theorem test_c2i_no_partial_result : answered State.reset [0x16, 0x02, 0x00, 0x00, 0x00, 0x00, 0x00, 0x01] = some [0x02] := by decide
/-- V-P35. -/
theorem test_i2c_more_than_four : answered State.reset [0x17, 0x05, 0x03, 0x02, 0x01, 0x00, 0x03] = some [0x00, 0x45, 0xA2, 0xF8, 0x8C, 0x1C, 0x84, 0x00, 0x00, 0x00, 0xFF, 0xFF, 0xFF, 0x45, 0xA2, 0xF8] := by decide
/-- V-P34. -/
theorem test_i2c_bad_element : answered State.reset [0x17, 0x02, 0x00, 0x07] = some [0x03] := by decide
/-- V-F6 with the frame of V-F3. -/
theorem test_construct_discards :
    shown frame3 [0x20, 0x02] =
      some ([0x00], [0x00], []) := by decide
/-- V-F7. -/
theorem test_construct_before_frame : answered State.reset [0x20, 0x00] = some [0x00] := by decide
/-- V-F3 row 10. -/
theorem test_setpx_crosses_row :
    shown frame3 [0x21, 0x00, 0x01, 0x03] =
      some ([0x00], [0xD5, 0x55, 0x56], [0x01, 0x00, 0x01, 0x03]) := by decide
/-- V-F3 row 15. -/
theorem test_setpx_bounds_before_index :
    shown frame3 [0x21, 0x03, 0x03, 0x09] =
      some ([0x01], [0x55, 0x55, 0x56], []) := by decide
/-- V-F5. -/
theorem test_getpx_last_pixel_255 : answered (frame 255 [(16256, 0x03)]) [0x22, 0xFE, 0xFE] = some [0x00, 0x03] := by decide
/-- V-F3 row 19. -/
theorem test_getpx_out_of_bounds : answered frame3 [0x22, 0x03, 0x00] = some [0x01] := by decide
/-- V-F3 row 5. -/
theorem test_setpxc_writes_index :
    shown (frame 3 [(0, 0x55), (1, 0x55), (2, 0x55)]) [0x23, 0x02, 0x02, 0x8C, 0x1C, 0x84] =
      some ([0x00], [0x55, 0x55, 0x56], [0x01, 0x02, 0x02, 0x02]) := by decide
/-- V-F3 row 17. -/
theorem test_setpxc_color_before_bounds :
    shown frame3 [0x23, 0x09, 0x09, 0x12, 0x34, 0x56] =
      some ([0x02], [0x55, 0x55, 0x56], []) := by decide
/-- V-F3 row 6. -/
theorem test_getpxc_purple : answered frame3 [0x24, 0x02, 0x02] = some [0x00, 0x8C, 0x1C, 0x84] := by decide
/-- V-F3 row 20. -/
theorem test_getpxc_out_of_bounds : answered frame3 [0x24, 0x00, 0x03] = some [0x01] := by decide
/-- V-F3 row 4. -/
theorem test_getraw_padding_included : answered (frame 3 [(0, 0x55), (1, 0x55), (2, 0x55)]) [0x25] = some [0x00, 0x55, 0x55, 0x55] := by decide
/-- V-F7. -/
theorem test_getraw_not_active : answered State.reset [0x25] = some [0x81] := by decide
/-- V-F3 row 8. -/
theorem test_getidx_no_padding : answered frame3 [0x26] = some [0x00, 0x01, 0x01, 0x01, 0x01, 0x01, 0x01, 0x01, 0x01, 0x02] := by decide
/-- P5 row 6. -/
theorem test_getidx_empty_frame : answered (frame 0 []) [0x26] = some [0x00] := by decide
/-- V-F3 row 9. -/
theorem test_getcol_colors : answered frame3 [0x27] = some [0x00, 0x00, 0x00, 0x00, 0x00, 0x00, 0x00, 0x00, 0x00, 0x00, 0x00, 0x00, 0x00, 0x00, 0x00, 0x00, 0x00, 0x00, 0x00, 0x00, 0x00, 0x00, 0x00, 0x00, 0x00, 0x8C, 0x1C, 0x84] := by decide
/-- V-F3 row 3. -/
theorem test_freset_fills_padding :
    shown (frame 3 []) [0x28, 0x01] =
      some ([0x00], [0x55, 0x55, 0x55], [0x03]) := by decide
/-- V-F3 row 11. -/
theorem test_freset_bad_fill :
    shown frame3 [0x28, 0x04] =
      some ([0x03], [0x55, 0x55, 0x56], []) := by decide
/-- V-F8 row 1. -/
theorem test_batch_later_wins :
    shown (frame 2 []) [0x29, 0x02, 0x02, 0x02, 0x01, 0x01, 0x00, 0x00, 0x01, 0x03] =
      some ([0x00], [0x0C], [0x02, 0x02]) := by decide
/-- P3 row 3. -/
theorem test_batch_keeps_earlier_writes :
    shown (frame 4 []) [0x29, 0x03, 0x03, 0x03, 0x00, 0x01, 0x09, 0x00, 0x00, 0x00, 0x01, 0x02, 0x03] =
      some ([0x01], [0x09, 0x00, 0x00, 0x00], []) := by decide

/-! ## Streams, RST and the parameters -/

/-- V-E2: a reserved byte is consumed alone and answered `80`. -/
theorem test_reserved_consumes_one_byte : leftOver State.reset [0xFF, 0x25] = some [.send 0x25] := by decide
theorem test_reserved_answer : shown frame3 [0xFF] = some ([0x80], [0x55, 0x55, 0x56], []) := by decide
/-- W4: a failing batch consumes all its twelve bytes. -/
theorem test_failed_batch_consumes_all :
    leftOver frame3 [0x29, 0x03, 0x02, 0x03, 0x00, 0x01, 0x02, 0x00, 0x00, 0x01, 0x02, 0x03, 0x25] =
      some [.send 0x25] := by decide
/-- V-E4: payload bytes are no opcodes. -/
theorem test_payload_is_no_opcode : answered State.reset [0x12, 0x02, 0x29, 0x03] = some [0x03] := by decide

/-- Rule R68, R190: RST drops a partly received command and the frame, and answers nothing. -/
theorem test_rst_drops_partial : (match step { frame3 with cmd := [.send 0x21, .send 0x00, .rst, .send 0x25] } with
    | .next t => some t
    | .fault _ => none
    | .refused _ => none) = some { State.reset with cmd := [.send 0x25] } := by decide
/-- A complete command before RST runs first. -/
theorem test_command_before_rst : (match step { frame3 with cmd := [.send 0x24, .send 2, .send 2, .rst] } with
    | .next t => some (t.rspBytes, t.cmd)
    | .fault _ => none
    | .refused _ => none) = some ([0x00, 0x8C, 0x1C, 0x84], [.rst]) := by decide

/-- P3 row 3 under `P_BATCH_ATOMIC = 1`: same status, nothing written. -/
theorem test_batch_atomic : (match batchWith { Config.params with batchAtomic := true } [0, 1, 9] [0, 0, 0] [1, 2, 3] (frame 4 []) with
    | .next t => some (t.rspBytes, bufBytes t, t.evtBytes)
    | .fault _ => none
    | .refused _ => none) = some ([0x01], [0, 0, 0, 0], []) := by decide

/-- V-F1: sizes. -/
theorem test_totalBytes : ([0, 1, 2, 3, 4, 5, 8, 254, 255] : List Byte).map (fun n => (totalBytes n).toNat) =
    [0, 1, 1, 3, 4, 7, 16, 16129, 16257] := by decide
/-- V-F2: the mapper. -/
theorem test_pixelMap : ([(8, 5, 2), (8, 2, 5), (8, 7, 7), (3, 0, 1), (3, 2, 2), (5, 0, 1), (255, 254, 0), (255, 0, 1),
    (255, 254, 254)] : List (Byte × Byte × Byte)).map (fun q => pixelMap q.1 q.2.1 q.2.2) =
    [(5, 1), (10, 2), (15, 3), (0, 3), (2, 0), (1, 1), (63, 2), (63, 3), (16256, 0)] := by decide

/-! ## The assembler (30_encoding.md rule R76) -/

theorem test_asm_setpxc : assembleLine "SETPXC 2, 2, 0x8C1C84 ; purple".toList =
    some (([0x23, 0x02, 0x02, 0x8C, 0x1C, 0x84] : List Byte).map .send) := by decide
theorem test_asm_batch : assembleLine "BATCH [5,2], [2,5], [2,3]".toList =
    some (([0x29, 0x02, 0x02, 0x02, 0x05, 0x02, 0x02, 0x05, 0x02, 0x03] : List Byte).map .send) := by decide
theorem test_asm_binary_and_empty_list : assembleLine "FRESET 0b11".toList = some [.send 0x28, .send 0x03] ∧
    assembleLine "PACKIDX []".toList = some [.send 0x12, .send 0x00] := by decide
theorem test_asm_rst : assembleLine "RST".toList = some [.rst] := by decide
theorem test_asm_comment_only : assembleLine "; nothing".toList = some [] := by decide
theorem test_asm_number_too_large : assembleLine "CONSTRUCT 256".toList = none ∧
    assembleLine "CIDX 0x1000000".toList = none := by decide
/-- A digit belongs to its base, and a prefix alone is no number. -/
theorem test_asm_digits : asmNumber "0xfF".toList = some 255 ∧ asmNumber "0b102".toList = none ∧
    asmNumber "1f".toList = none ∧ asmNumber "0x".toList = none ∧ asmNumber "0".toList = some 0 := by decide
theorem test_asm_no_such_mnemonic : assembleLine "RESET 1".toList = none := by decide

/-! ## Witnesses: for every obligation with hypotheses, states and operands that meet them all -/

/-- An active 3x3 frame with something already on every stream: the state most witnesses use. -/
def busy : State :=
  { frame3 with cmd := [.send 0x25], rsp := [.ok [], .error .indexOutOfRange], evt := [.pixelChanged 2 2 2] }

theorem witness_DecodeIsTotalAndInvertsEncode :
    (Instr.packidx (List.replicate 255 7)).WellFormed ∧ Instr.getraw.WellFormed ∧
      decode [0x11, 0xFF] = .cmd (.cfromidx 255) [] := by
  refine ⟨?_, rfl, by decide⟩
  simp only [Instr.WellFormed, Instr.wellFormed, fitsCount, Config.maxCount, List.length_replicate]; decide

theorem witness_CommandLengthAndConsumption :
    (Instr.batch [1] [] [2, 3]).WellFormed ∧
      ∃ s : State, s.cmd = (encode (.batch [1] [] [2, 3])).map .send ++ [.rst] :=
  ⟨rfl, { busy with cmd := _ }, rfl⟩

theorem witness_CommandLengthAndConsumption_longest :
    (Instr.batch (List.replicate 255 0) (List.replicate 255 0) (List.replicate 255 0)).WellFormed ∧
      (Instr.c2i (List.replicate 255 0)).WellFormed ∧ (Instr.i2c (List.replicate 255 0)).WellFormed := by
  simp only [Instr.WellFormed, Instr.wellFormed, fitsCount, Config.maxCount, List.length_replicate]; decide

theorem witness_ReservedOpcodesAnswerIllegalCommand :
    (Opcode.ofByte 0x00 = none ∧ Opcode.ofByte 0x03 = none ∧ Opcode.ofByte 0x0F = none ∧ Opcode.ofByte 0x18 = none ∧
      Opcode.ofByte 0x1F = none ∧ Opcode.ofByte 0x2A = none ∧ Opcode.ofByte 0xFF = none) ∧
    (∃ s : State, s.cmd = [.send 0x2A, .send 0x25]) ∧
    decode [0xFF, 0x25] = .illegal 0xFF [0x25] ∧ Opcode.ofByte 0x29 = some .batch :=
  ⟨by decide, ⟨{ busy with cmd := _ }, rfl⟩, by decide, by decide⟩

theorem witness_AssemblerAgreesWithEncode :
    (Instr.c2i [0xFFFFFF, 0x000000]).WellFormed ∧
      assemble (.command .pack [.num 255, .num 0, .num 64]) = some (([0x01, 0xFF, 0x00, 0x40] : List Byte).map .send) := by
  decide

theorem witness_StepRunsTheDecodedCommand :
    (Instr.setpx 2 2 3).WellFormed ∧
      ∃ s : State, s.active = true ∧ s.cmd = (encode (.setpx 2 2 3)).map .send ++ [.send 0x25, .rst] :=
  ⟨rfl, { busy with cmd := _ }, rfl, rfl⟩

/-- One byte short of a whole command, no byte at all, and a count byte missing. -/
theorem witness_IncompleteCommandWaits :
    ((∃ s : State, s.cmd = ([0x21, 0x02, 0x02] : List Byte).map .send) ∧ cmdLen [0x21, 0x02, 0x02] = some 4) ∧
    (State.reset.cmd = ([] : List Byte).map .send ∧ cmdLen [] = none) ∧ cmdLen [0x29, 0x01, 0x01] = none :=
  ⟨⟨⟨{ busy with cmd := _ }, rfl⟩, by decide⟩, by decide, by decide⟩

/-- RST inside a command, RST at a command boundary, and RST in the reset state. -/
theorem witness_RstResetsTheBlock :
    ((∃ s : State, s.active = true ∧ s.cmd = ([0x21, 0x02] : List Byte).map .send ++ .rst :: [.send 0x25]) ∧
      cmdLen [0x21, 0x02] = some 4) ∧
    ((∃ s : State, s.active = true ∧ s.cmd = ([] : List Byte).map .send ++ .rst :: []) ∧ cmdLen [] = none) ∧
    (∃ s : State, s.active = false ∧ s.size = 0 ∧ s.buf = [] ∧ s.cmd = [.rst]) :=
  ⟨⟨⟨{ busy with cmd := _ }, rfl, rfl⟩, by decide⟩, ⟨⟨{ busy with cmd := _ }, rfl, rfl⟩, by decide⟩,
    ⟨{ State.reset with cmd := _ }, rfl, rfl, rfl, rfl⟩⟩

theorem witness_StepKeepsTheInvariant : busy.Inv ∧ ∃ t, step busy = .next t := by
  exact ⟨by decide, _, rfl⟩

/-- Two states that share the frame and differ in everything else. -/
theorem witness_BehaviourDependsOnlyOnTheFrame :
    busy.active = frame3.active ∧ busy.size = frame3.size ∧ busy.buf = frame3.buf ∧ busy ≠ frame3 := by decide

/-- Two frames of one size with different contents. -/
theorem witness_StatusDoesNotDependOnBuf :
    busy.active = (frame 3 []).active ∧ busy.size = (frame 3 []).size ∧ busy.buf ≠ (frame 3 []).buf := by decide

theorem witness_LifecycleTransitions :
    (Instr.construct 0).opcode = .construct ∧ (Instr.freset 0).opcode ≠ .construct := by decide

/-- A `CONSTRUCT` of another size, and an RST inside a command. -/
theorem witness_OnlyConstructAndRstChangeTheLifecycle :
    (∃ s t, s.cmd = [.send 0x20, .send 0x05] ∧ step s = .next t ∧ t.size ≠ s.size) ∧
    (∃ s t, s.cmd = [.send 0x21, .rst] ∧ step s = .next t ∧ t.active ≠ s.active) :=
  ⟨⟨{ busy with cmd := _ }, _, rfl, rfl, by decide⟩, ⟨{ busy with cmd := _ }, _, rfl, rfl, by decide⟩⟩

theorem witness_OnlyFiveCommandsWriteTheFrame :
    (Instr.getraw).opcode ∉ [Opcode.construct, .setpx, .setpxc, .freset, .batch] := by decide

theorem witness_PureCommandsIgnoreTheState :
    isPureCommand (Instr.pack 0 0 0).opcode = true ∧ isPureCommand (Instr.i2c []).opcode = true := by decide

/-- A command that is no batch and one that is: the batch fails after it has written. -/
theorem witness_ErrorEntryChangesNothingElse :
    (∃ t, exec (.setpx 3 3 9) busy = .next t ∧ t.rsp = busy.rsp ++ [.error .coordinatesOutOfBounds] ∧
      (Instr.setpx 3 3 9).opcode ≠ .batch) ∧
    (∃ t, exec (.batch [0, 9] [0, 0] [3, 0]) busy = .next t ∧ t.rsp = busy.rsp ++ [.error .coordinatesOutOfBounds] ∧
      t.buf ≠ busy.buf) := by
  exact ⟨⟨_, rfl, by decide, by decide⟩, ⟨_, rfl, by decide, by decide⟩⟩

theorem witness_EventsOfEveryCommand :
    (∃ t, exec (.freset 3) busy = .next t ∧ t.rsp = busy.rsp ++ [.ok []]) ∧
    (∃ t, exec (.freset 4) busy = .next t ∧ t.rsp = busy.rsp ++ [.error .indexOutOfRange]) := by
  exact ⟨⟨_, rfl, by decide⟩, ⟨_, rfl, by decide⟩⟩

theorem witness_EventsParameterChangesOnlyEvents :
    ∃ x y idx, (fun p => setpxWith p 2 2 3) = fun p => setpxWith p x y idx := ⟨2, 2, 3, rfl⟩

/-- The four palette colors and a color one bit away from each end. -/
theorem witness_CidxResult :
    ((0x45A2F8 : Color) = 0x45A2F8) ∧
      ((0xFFFFFE : Color) ≠ 0xFFFFFF ∧ (0xFFFFFE : Color) ≠ 0x000000 ∧ (0xFFFFFE : Color) ≠ 0x8C1C84 ∧
        (0xFFFFFE : Color) ≠ 0x45A2F8) ∧
      ((0x000001 : Color) ≠ 0xFFFFFF ∧ (0x000001 : Color) ≠ 0x000000 ∧ (0x000001 : Color) ≠ 0x8C1C84 ∧
        (0x000001 : Color) ≠ 0x45A2F8) := by decide

theorem witness_CfromidxResult :
    (3 : Byte).toNat = (3 : Index).toNat ∧ (0 : Byte).toNat = (0 : Index).toNat ∧ 4 ≤ (4 : Byte).toNat ∧
      4 ≤ (255 : Byte).toNat := by decide

theorem witness_PackidxResult :
    (([3, 3, 3, 3] : List Byte).length ≤ 4 ∧ ∀ i ∈ ([3, 3, 3, 3] : List Byte), i.toNat < 4) ∧
    (([] : List Byte).length ≤ 4 ∧ ∀ i ∈ ([] : List Byte), i.toNat < 4) ∧
    4 < ([9, 9, 9, 9, 9] : List Byte).length ∧
    (([0, 0, 0, 4] : List Byte).length ≤ 4 ∧ ∃ i ∈ ([0, 0, 0, 4] : List Byte), 4 ≤ i.toNat) := by decide

theorem witness_IdxatResult : (3 : Byte).toNat < 4 ∧ 4 ≤ (4 : Byte).toNat ∧ 4 ≤ (255 : Byte).toNat := by decide

theorem witness_SetidxatResult :
    ((3 : Byte).toNat < 4 ∧ (3 : Byte).toNat < 4) ∧ 4 ≤ (4 : Byte).toNat ∧
      ((3 : Byte).toNat < 4 ∧ 4 ≤ (4 : Byte).toNat) := by decide

theorem witness_C2iResult : ∃ c ∈ ([0x000000, 0x000001] : List Color), ∀ i : Index, PAL i ≠ c :=
  ⟨0x000001, by simp, by decide⟩

theorem witness_I2cResult : ∃ i ∈ ([0, 4] : List Byte), 4 ≤ i.toNat := by decide

theorem witness_PaletteLaws :
    colorIndex 0x45A2F8 = .ok 3 ∧ ([3, 2, 1, 0] : List Index).length ≤ 4 ∧ ([] : List Index).length ≤ 4 := by
  exact ⟨rfl, by decide, by decide⟩

theorem witness_FieldInsertAndExtract : (3 : Index) ≠ 0 := by decide

theorem witness_MapperIsExactAndInjective :
    inBounds 255 254 254 = true ∧ inBounds 255 0 0 = true ∧ inBounds 1 0 0 = true := by decide

theorem witness_BufIsALittleEndianBitString : inBounds busy.size 2 2 = true := by decide

theorem witness_FrameCommandsNeedActive :
    isPureCommand (Instr.batch [1] [] [2, 3]).opcode = false ∧ (Instr.batch [1] [] [2, 3]).opcode ≠ .construct ∧
      State.reset.active = false := by decide

/-- The last pixel with the largest index; before construction; one past the last column, with a bad index too; a bad index. -/
theorem witness_SetpxResult :
    (busy.active = true ∧ (2 : Byte).toNat < busy.size.toNat ∧ (2 : Byte).toNat < busy.size.toNat ∧
      (3 : Byte).toNat = (3 : Index).toNat ∧ Memory.wf busy.buf = true) ∧
    State.reset.active = false ∧
    (busy.active = true ∧ ¬ ((3 : Byte).toNat < busy.size.toNat ∧ (0 : Byte).toNat < busy.size.toNat)) ∧
    (busy.active = true ∧ (2 : Byte).toNat < busy.size.toNat ∧ (0 : Byte).toNat < busy.size.toNat ∧
      4 ≤ (4 : Byte).toNat) := by decide

theorem witness_SetpxcResult :
    (busy.active = true ∧ (2 : Byte).toNat < busy.size.toNat ∧ (2 : Byte).toNat < busy.size.toNat ∧
      Memory.wf busy.buf = true) ∧
    State.reset.active = false ∧
    (busy.active = true ∧ ∀ i : Index, PAL i ≠ 0x123456) ∧
    (busy.active = true ∧ ¬ ((0 : Byte).toNat < busy.size.toNat ∧ (3 : Byte).toNat < busy.size.toNat)) := by decide

theorem witness_GetpxResult :
    (busy.active = true ∧ (2 : Byte).toNat < busy.size.toNat ∧ (0 : Byte).toNat < busy.size.toNat) ∧
    State.reset.active = false ∧
    (busy.active = true ∧ ¬ ((3 : Byte).toNat < busy.size.toNat ∧ (0 : Byte).toNat < busy.size.toNat)) := by decide

theorem witness_GetpxcResult :
    (busy.active = true ∧ (0 : Byte).toNat < busy.size.toNat ∧ (2 : Byte).toNat < busy.size.toNat) ∧
    State.reset.active = false ∧
    (busy.active = true ∧ ¬ ((255 : Byte).toNat < busy.size.toNat ∧ (0 : Byte).toNat < busy.size.toNat)) := by decide

theorem witness_GetrawResult : busy.active = true ∧ State.reset.active = false ∧ 2 < (bufBytes busy).length := by decide

theorem witness_GetidxResult :
    busy.active = true ∧ State.reset.active = false ∧ 8 < (allIndices busy).length ∧
      (2 : Byte).toNat < busy.size.toNat := by decide

theorem witness_GetcolResult : busy.active = true ∧ State.reset.active = false ∧ 8 < (allIndices busy).length := by decide

theorem witness_FresetResult :
    (busy.active = true ∧ (3 : Byte).toNat = (3 : Index).toNat ∧ busy.Inv ∧ 2 < (totalBytes busy.size).toNat ∧
      (2 : Byte).toNat < busy.size.toNat) ∧
    State.reset.active = false ∧ (busy.active = true ∧ 4 ≤ (4 : Byte).toNat) := by decide

/-- The clauses of the batch: not active; lengths (3,2,3); every element good, one pixel named twice; a bad coordinate after one
good element; a bad index in the first element. -/
theorem witness_BatchAppliesElementsInOrder :
    State.reset.active = false ∧
    (busy.active = true ∧ ¬ (([0, 1, 2] : List Byte).length = ([0, 0] : List Byte).length ∧
      ([0, 0] : List Byte).length = ([1, 2, 3] : List Byte).length)) ∧
    (busy.active = true ∧ busy.Inv ∧ ([2, 2] : List Byte).length = ([2, 2] : List Byte).length ∧
      ([2, 2] : List Byte).length = ([1, 3] : List Byte).length ∧
      ∀ e ∈ triples [2, 2] [2, 2] [1, 3],
        e.1.toNat < busy.size.toNat ∧ e.2.1.toNat < busy.size.toNat ∧ e.2.2.toNat < 4) ∧
    ((∀ e ∈ (triples [2, 3] [2, 0] [1, 9]).take 1,
        e.1.toNat < busy.size.toNat ∧ e.2.1.toNat < busy.size.toNat ∧ e.2.2.toNat < 4) ∧
      (triples [2, 3] [2, 0] [1, 9])[1]? = some (3, 0, 9) ∧
      ¬ ((3 : Byte).toNat < busy.size.toNat ∧ (0 : Byte).toNat < busy.size.toNat)) ∧
    ((triples [2] [2] [4])[0]? = some (2, 2, 4) ∧ (2 : Byte).toNat < busy.size.toNat ∧ 4 ≤ (4 : Byte).toNat) := by
  refine ⟨rfl, by decide, ⟨rfl, by decide, rfl, rfl, ?_⟩, ⟨?_, by decide, by decide⟩, by decide⟩ <;>
    simp [triples, busy, frame3, frame]

/-- A batch that succeeds and one that fails after a write, without atomicity. -/
theorem witness_AtomicBatchDiffersOnlyInBufAfterFailure :
    (∃ t, batchWith { Config.params with batchAtomic := false } [2] [2] [3] busy = .next t ∧
      t.rsp = busy.rsp ++ [.ok []]) ∧
    (∃ t, batchWith { Config.params with batchAtomic := false } [0, 9] [0, 0] [3, 0] busy = .next t ∧
      t.rsp = busy.rsp ++ [.error .coordinatesOutOfBounds] ∧ t.buf ≠ busy.buf) := by
  exact ⟨⟨_, rfl, by decide⟩, ⟨_, rfl, by decide, by decide⟩⟩

theorem witness_ReadAfterWrite :
    busy.active = true ∧ busy.Inv ∧ (2 : Byte).toNat < busy.size.toNat ∧ (3 : Byte).toNat < 4 ∧
      (0 : Byte).toNat < busy.size.toNat ∧ (0 : Byte) ≠ 2 := by decide

theorem witness_FreshAndFilledFrames : busy.active = true ∧ (3 : Byte).toNat < 4 := by decide

theorem witness_BulkReadsAgree : busy.active = true ∧ 8 < (allIndices busy).length := by decide

theorem witness_EmptyFrameBehaviour :
    Instr.getcol ∈ [Instr.getraw, .getidx, .getcol] ∧ (3 : Byte).toNat < 4 ∧ ([0] : List Byte) ≠ [] ∧
      ([0] : List Byte).length = ([0] : List Byte).length := by decide

/-- The 3x3 frame has three padding fields, positions 9, 10, 11, and a batch that writes its last pixel. -/
theorem witness_PaddingFieldsChangeOnlyByConstructAndFreset :
    busy.Inv ∧ (∃ t, exec (.batch [2] [2] [3]) busy = .next t) ∧ (Instr.batch [2] [2] [3]).opcode ≠ .construct ∧
      (Instr.batch [2] [2] [3]).opcode ≠ .freset ∧ (totalPixels busy.size).toNat ≤ 9 := by
  exact ⟨by decide, ⟨_, rfl⟩, by decide, by decide, by decide⟩
end

