-- ==== Sys2Proof/Proofs/PaletteTable.lean ====
section
/-! The palette as a table (10_state.md rule R26): its four entries, and the lookup by color as the inverse of the lookup by
index, which is why no two entries share a color. -/

namespace Sys2Proof.Machine

@[simp] theorem PAL_zero : PAL 0 = 0xFFFFFF := rfl
@[simp] theorem PAL_one : PAL 1 = 0x000000 := rfl
@[simp] theorem PAL_two : PAL 2 = 0x8C1C84 := rfl
@[simp] theorem PAL_three : PAL 3 = 0x45A2F8 := rfl

/-- The search of the table for an entry's color finds that entry and no earlier one. -/
@[simp] theorem colorIndex_PAL (i : Index) : colorIndex (PAL i) = .ok i := by
  have four : i = 0 ∨ i = 1 ∨ i = 2 ∨ i = 3 := by revert i; decide
  rcases four with rfl | rfl | rfl | rfl <;> rfl

theorem PAL_injective : Function.Injective PAL := fun i j h => by
  have found : Except.ok (ε := CmdError) i = .ok j := by
    rw [← colorIndex_PAL i, h, colorIndex_PAL j]
  exact Except.ok.inj found

/-- Settles O28: the entries and their channels are read off the table, and equal colors are found at equal indices. -/
theorem paletteTable : Obligations.PaletteTable := by
  unfold Obligations.PaletteTable
  refine ⟨PAL_zero, PAL_one, PAL_two, PAL_three, ?white, ?black, ?purple, ?blue, fun _ _ h => PAL_injective h⟩
  case white | black | purple | blue => decide

end Sys2Proof.Machine
end

