-- ==== Sys2Proof/Proofs/ReservedOpcodes.lean ====
section
/-! The reserved opcodes (30_encoding.md rule R69): which bytes they are, that the decoder calls nothing else illegal, and the
step that answers one. -/

namespace Sys2Proof

/-! ## The opcode map read backwards -/

/-- The reserved bytes are the gaps between the groups of the opcode table. -/
theorem Opcode.ofByte_eq_none_iff (b : Byte) : Opcode.ofByte b = none ↔
    b.toNat = 0x00 ∨ (0x03 ≤ b.toNat ∧ b.toNat ≤ 0x0F) ∨ (0x18 ≤ b.toNat ∧ b.toNat ≤ 0x1F) ∨ 0x2A ≤ b.toNat := by
  unfold Opcode.ofByte
  split
  -- the last branch of the map: none of the twenty opcodes
  case h_21 => simp only [imp_false, true_iff] at *; omega
  all_goals simp only [reduceCtorEq, false_iff]; omega

set_option maxRecDepth 2000 in
/-- The gaps hold 1 + 13 + 8 + 214 bytes; counted over the whole opcode map. -/
theorem Opcode.count_reserved :
    ((List.range 256).filter fun n => (Opcode.ofByte (BitVec.ofNat 8 n)).isNone).length = 236 := by decide

/-- A byte that the opcode map reads as a command is that command's own opcode byte. -/
theorem Opcode.eq_byte_of_ofByte {b : Byte} {o : Opcode} (h : Opcode.ofByte b = some o) : b = o.byte := by
  unfold Opcode.ofByte at h
  split at h <;> cases h <;> exact BitVec.eq_of_toNat_eq ‹b.toNat = _›

/-! ## What the decoder calls illegal -/

theorem decode_of_reserved {op : Byte} (t : List Byte) (h : Opcode.ofByte op = none) :
    decode (op :: t) = .illegal op t := by
  simp only [decode, h]

/-- Cutting a payload off answers illegal only where its continuation does. -/
theorem takePayload_ne_illegal {n : Nat} {t : List Byte} {k : List Byte → List Byte → Decoded} {op : Byte}
    {rest : List Byte} (hk : ∀ p u, k p u ≠ .illegal op rest) : takePayload n t k ≠ .illegal op rest := by
  unfold takePayload
  split
  · exact Decoded.noConfusion
  · exact hk _ _

/-- Behind the opcode of a command the decoder finds the command or asks for more, whatever the operands. -/
theorem decode_ne_illegal_of_opcode {b : Byte} {o : Opcode} (t : List Byte) (h : Opcode.ofByte b = some o) (op : Byte)
    (rest : List Byte) : decode (b :: t) ≠ .illegal op rest := by
  cases o <;> simp only [decode, h]
  case getraw | getidx | getcol => exact Decoded.noConfusion
  case packidx | c2i | i2c =>
    split
    · exact takePayload_ne_illegal fun _ _ => Decoded.noConfusion
    · exact Decoded.noConfusion
  case batch =>
    split
    · exact takePayload_ne_illegal fun _ _ => takePayload_ne_illegal fun _ _ =>
        takePayload_ne_illegal fun _ _ => Decoded.noConfusion
    · exact Decoded.noConfusion
  all_goals split <;> exact Decoded.noConfusion

/-- An illegal answer names the first byte, which is reserved, and consumes it alone. -/
theorem reserved_of_decode_illegal {s : List Byte} {op : Byte} {rest : List Byte} (h : decode s = .illegal op rest) :
    s = op :: rest ∧ Opcode.ofByte op = none := by
  cases s with
  | nil => cases h
  | cons b t =>
    cases hb : Opcode.ofByte b with
    | none =>
      rw [decode_of_reserved t hb] at h
      cases h
      exact ⟨rfl, hb⟩
    | some o => exact absurd h (decode_ne_illegal_of_opcode t hb op rest)

end Sys2Proof

namespace Sys2Proof.Machine

/-! ## The step that takes a reserved opcode -/

theorem fetch_of_reserved {b : Byte} (t : List HostAction) (h : Opcode.ofByte b = none) :
    fetch (.send b :: t) = .illegal t := by
  simp only [fetch, bytesBeforeRst, fromRst, decode_of_reserved _ h, bytesBeforeRst_append_fromRst]

/-- One byte leaves CMD and one error response is added, in every state. -/
theorem step_of_reserved {s : State} {b : Byte} {t : List HostAction} (h : Opcode.ofByte b = none)
    (hs : s.cmd = .send b :: t) :
    step s = .next { s with cmd := t, rsp := s.rsp ++ [.error .illegalCommand] } := by
  rw [step, hs, fetch_of_reserved t h]; rfl

/-- Settles O3: the reserved bytes are the gaps of the opcode table, the decoder answers illegal for them alone, and two opcode
bytes of one command are both its own. -/
theorem reservedOpcodesAnswerIllegalCommand : Obligations.ReservedOpcodesAnswerIllegalCommand := by
  unfold Obligations.ReservedOpcodesAnswerIllegalCommand
  refine ⟨Opcode.ofByte_eq_none_iff, Opcode.count_reserved, fun _ _ _ => step_of_reserved, rfl,
    fun _ _ _ => reserved_of_decode_illegal, ?unique⟩
  case unique => exact fun _ _ _ hb hb' => (Opcode.eq_byte_of_ofByte hb).trans (Opcode.eq_byte_of_ofByte hb').symm

end Sys2Proof.Machine
end

