-- ==== Sys2Proof/Proofs/ColorCodec.lean ====
section
/-! The color codec by value (40_colorcodec.md): a packed color as a sum of its channels, each channel of a color as a quotient,
and the two commands that answer them. -/

namespace Sys2Proof.Machine

/-! ## Pack (rule R100) -/

/-- The three shifted operands occupy disjoint bits, so their OR is their sum. -/
theorem pack_toNat (r g b : Byte) : (pack r g b).toNat = r.toNat * 65536 + g.toNat * 256 + b.toNat := by
  have hr : r.toNat < 2 ^ 8 := r.isLt
  have hg : g.toNat < 2 ^ 8 := g.isLt
  have hb : b.toNat < 2 ^ 8 := b.isLt
  have low : g.toNat <<< 8 + b.toNat < 2 ^ 16 := by omega
  calc (pack r g b).toNat
      = r.toNat <<< 16 ||| g.toNat <<< 8 ||| b.toNat := by
        simp (disch := omega) only [pack, BitVec.toNat_or, BitVec.toNat_shiftLeft, BitVec.toNat_setWidth,
          Nat.mod_eq_of_lt]
    _ = r.toNat <<< 16 + (g.toNat <<< 8 + b.toNat) := by
        rw [Nat.or_assoc, ← Nat.shiftLeft_add_eq_or_of_lt hb, ← Nat.shiftLeft_add_eq_or_of_lt low]
    _ = r.toNat * 65536 + g.toNat * 256 + b.toNat := by omega

/-! ## The channels of a color (rule R101) -/

section Channels
variable (c : Color)

theorem color_red_toNat : (c.extractLsb' 16 8).toNat = c.toNat / 65536 := by
  have := c.isLt
  rw [BitVec.extractLsb'_toNat]; omega

theorem color_green_toNat : (c.extractLsb' 8 8).toNat = c.toNat / 256 % 256 := by
  rw [BitVec.extractLsb'_toNat]; omega

theorem color_blue_toNat : (c.extractLsb' 0 8).toNat = c.toNat % 256 := BitVec.extractLsb'_toNat 0 8 c

/-- Shifting a channel down and masking it with 0xFF cuts its eight bits out. -/
theorem maskedChannel_eq_extractLsb' (n : Nat) : ((c >>> n) &&& 0xFF).setWidth 8 = c.extractLsb' n 8 := by
  apply BitVec.eq_of_toNat_eq
  calc (((c >>> n) &&& 0xFF).setWidth 8).toNat
      = (c.toNat >>> n &&& 2 ^ 8 - 1) % 2 ^ 8 := by
        rw [BitVec.toNat_setWidth, BitVec.toNat_and, BitVec.toNat_ushiftRight]; rfl
    _ = (c.extractLsb' n 8).toNat := by
        rw [Nat.and_two_pow_sub_one_eq_mod, Nat.mod_mod, BitVec.extractLsb'_toNat]

theorem unpack_eq_channels : unpack c = (c.extractLsb' 16 8, c.extractLsb' 8 8, c.extractLsb' 0 8) :=
  Prod.ext (maskedChannel_eq_extractLsb' c 16) (Prod.ext (maskedChannel_eq_extractLsb' c 8) (maskedChannel_eq_extractLsb' c 0))

end Channels

/-- The bytes of a packed color on a stream are its operands in order: each channel of the sum is one operand. -/
@[simp] theorem colorBytes_pack (r g b : Byte) : colorBytes (pack r g b) = [r, g, b] := by
  have red : (pack r g b).extractLsb' 16 8 = r := BitVec.eq_of_toNat_eq (by rw [color_red_toNat, pack_toNat]; omega)
  have green : (pack r g b).extractLsb' 8 8 = g := BitVec.eq_of_toNat_eq (by rw [color_green_toNat, pack_toNat]; omega)
  have blue : (pack r g b).extractLsb' 0 8 = b := BitVec.eq_of_toNat_eq (by rw [color_blue_toNat, pack_toNat]; omega)
  simp only [colorBytes, red, green, blue]

/-! ## The two commands -/

theorem exec_pack (r g b : Byte) (s : State) :
    exec (.pack r g b) s = .next (s.reply (.ok (colorBytes (pack r g b)))) := rfl

/-- `UNPACK` answers the bytes its color came in. -/
theorem exec_unpack (c : Color) (s : State) : exec (.unpack c) s = .next (s.reply (.ok (colorBytes c))) := by
  change execUnpack c s = _
  rw [execUnpack, unpack_eq_channels]; rfl

/-- Settles O25: the command answers the packed color, whose value is the sum of the shifted channels. -/
theorem packResult : Obligations.PackResult := by
  unfold Obligations.PackResult
  exact fun r g b s => ⟨rfl, exec_pack r g b s, pack_toNat r g b, colorBytes_pack r g b⟩

/-- Settles O26: the command answers the three channels of the color, each a quotient of its value. -/
theorem unpackResult : Obligations.UnpackResult := by
  unfold Obligations.UnpackResult
  exact fun c s => ⟨c.extractLsb' 16 8, c.extractLsb' 8 8, c.extractLsb' 0 8, rfl, exec_unpack c s,
    unpack_eq_channels c, color_red_toNat c, color_green_toNat c, color_blue_toNat c⟩

end Sys2Proof.Machine
end

