-- ==== Sys2Proof/Proofs/PackedFields.lean ====
section
/-! The fields of a packed byte by value (41_palette.md rules R112, R113): a field read is a quotient, and a field replaced is
read back while the other three keep their values. -/

namespace Sys2Proof.Machine

/-! ## Reading a field -/

theorem indexAt_toNat (b : Byte) (k : Index) : (indexAt b k).toNat = b.toNat / 4 ^ k.toNat % 4 := by
  rw [indexAt, BitVec.extractLsb'_toNat, BitVec.toNat_ushiftRight, Nat.shiftRight_zero, Nat.shiftRight_eq_div_pow, Nat.pow_mul]

/-- Every position below 4 is the number of a field. -/
theorem indexAt_ofNat_toNat (b : Byte) {k : Nat} (hk : k < 4) :
    (indexAt b (BitVec.ofNat 2 k)).toNat = b.toNat / 4 ^ k % 4 := by
  rw [indexAt_toNat, BitVec.toNat_ofNat, Nat.mod_eq_of_lt hk]

/-! ## Replacing a field -/

/-- The mask `0b11` that clears a field covers the field's two bits. -/
theorem getLsbD_fieldMask (k : Index) {n : Nat} (hn : n < 8) :
    ((0b11 : Byte) <<< (2 * k.toNat)).getLsbD n = decide (n / 2 = k.toNat) := by
  revert k n; decide

/-- Bit by bit: the two bits of field `k` come from `v`, every other bit from the old byte. -/
theorem getLsbD_setIndexAt (b : Byte) (k v : Index) {n : Nat} (hn : n < 8) :
    (setIndexAt b k v).getLsbD n = if n / 2 = k.toNat then v.getLsbD (n - 2 * k.toNat) else b.getLsbD n := by
  rw [setIndexAt, BitVec.getLsbD_or, BitVec.getLsbD_and, BitVec.getLsbD_not, getLsbD_fieldMask k hn, BitVec.getLsbD_shiftLeft,
    BitVec.getLsbD_setWidth]
  split
  case isTrue inside =>
    have above : ¬ n < 2 * k.toNat := by omega
    have low : n - 2 * k.toNat < 8 := by omega
    simp [inside, hn, above, low]
  case isFalse outside =>
    by_cases below : n < 2 * k.toNat
    · simp [outside, hn, below]
    · have high : v.getLsbD (n - 2 * k.toNat) = false := BitVec.getLsbD_of_ge _ _ (by omega)
      simp [outside, hn, high]

theorem getLsbD_indexAt (b : Byte) (k : Index) {n : Nat} (hn : n < 2) :
    (indexAt b k).getLsbD n = b.getLsbD (2 * k.toNat + n) := by
  simp [indexAt, hn]

/-- A bit of a field of the written byte. -/
theorem getLsbD_indexAt_setIndexAt (b : Byte) (j k v : Index) {n : Nat} (hn : n < 2) :
    (indexAt (setIndexAt b k v) j).getLsbD n =
      if j.toNat = k.toNat then v.getLsbD (2 * j.toNat + n - 2 * k.toNat) else b.getLsbD (2 * j.toNat + n) := by
  have field : (2 * j.toNat + n) / 2 = j.toNat := by omega
  rw [getLsbD_indexAt _ _ hn, getLsbD_setIndexAt _ _ _ (by omega), field]

/-- The field that was written reads back. -/
@[simp] theorem indexAt_setIndexAt_same (b : Byte) (k v : Index) : indexAt (setIndexAt b k v) k = v := by
  apply BitVec.eq_of_getLsbD_eq
  intro n hn
  rw [getLsbD_indexAt_setIndexAt _ _ _ _ hn, if_pos rfl, Nat.add_sub_cancel_left]

/-- The other three fields pass through. -/
theorem indexAt_setIndexAt_of_ne (b : Byte) {j k : Index} (v : Index) (h : j ≠ k) :
    indexAt (setIndexAt b k v) j = indexAt b j := by
  apply BitVec.eq_of_getLsbD_eq
  intro n hn
  rw [getLsbD_indexAt_setIndexAt _ _ _ _ hn, if_neg (BitVec.toNat_ne.mp h), getLsbD_indexAt _ _ hn]

/-- Every field of the written byte by value. -/
theorem setIndexAt_toNat_field (b : Byte) (k v : Index) {n : Nat} (hn : n < 4) :
    (setIndexAt b k v).toNat / 4 ^ n % 4 = if n = k.toNat then v.toNat else b.toNat / 4 ^ n % 4 := by
  split
  case isTrue same => rw [same, ← indexAt_toNat, indexAt_setIndexAt_same]
  case isFalse other =>
    have position : BitVec.ofNat 2 n ≠ k := by
      rintro rfl
      exact other (Nat.mod_eq_of_lt hn).symm
    rw [← indexAt_ofNat_toNat _ hn, indexAt_setIndexAt_of_ne _ _ position, indexAt_ofNat_toNat _ hn]

end Sys2Proof.Machine
end

