-- ==== Sys2Proof/Proofs/PaletteCommands.lean ====
section
/-! The palette commands of one color or one byte (41_palette.md rules R114, R115, R117 to R119): what each answers where its
operands are good, and which error it raises where they are not. -/

namespace Sys2Proof.Machine

/-! ## Looking the palette up (rules R110, R111) -/

/-- The search of the whole table fails for a color that is none of its entries. -/
theorem colorIndex_of_forall_ne {c : Color} (h : ∀ i : Index, PAL i ≠ c) : colorIndex c = .error .colorNotInPalette := by
  have none_found : [(0 : Index), 1, 2, 3].find? (fun i => PAL i = c) = none :=
    List.find?_eq_none.mpr fun i _ => by simpa using h i
  rw [colorIndex, none_found]

/-- The table has the four entries of rule R26 and no other. -/
theorem PAL_ne_of_ne_entries {c : Color} (white : c ≠ 0xFFFFFF) (black : c ≠ 0x000000) (purple : c ≠ 0x8C1C84)
    (blue : c ≠ 0x45A2F8) (i : Index) : PAL i ≠ c := by
  unfold PAL
  split_ifs
  exacts [white.symm, black.symm, purple.symm, blue.symm]

theorem colorFromIndex_of_toNat_eq {idx : Byte} {i : Index} (h : idx.toNat = i.toNat) : colorFromIndex idx = .ok (PAL i) := by
  have small : atLeast4 idx = false := (atLeast4_eq_false_iff idx).mpr (h ▸ i.isLt)
  rw [colorFromIndex, small, low2_of_toNat_eq h]; rfl

theorem colorFromIndex_of_four_le {idx : Byte} (h : 4 ≤ idx.toNat) : colorFromIndex idx = .error .indexOutOfRange :=
  if_pos ((atLeast4_iff idx).mpr h)

/-! ## `CIDX` and `CFROMIDX` (rules R114, R115) -/

section Commands
variable (s : State)

theorem exec_cidx_PAL (i : Index) : exec (.cidx (PAL i)) s = .next (s.reply (.ok [indexByte i])) := by
  change execCidx (PAL i) s = _
  rw [execCidx, colorIndex_PAL]; rfl

theorem exec_cidx_of_forall_ne {c : Color} (h : ∀ i : Index, PAL i ≠ c) :
    exec (.cidx c) s = .next (s.reply (.error .colorNotInPalette)) := by
  change execCidx c s = _
  rw [execCidx, colorIndex_of_forall_ne h]; rfl

theorem exec_cfromidx_of_toNat_eq {idx : Byte} {i : Index} (h : idx.toNat = i.toNat) :
    exec (.cfromidx idx) s = .next (s.reply (.ok (colorBytes (PAL i)))) := by
  change execCfromidx idx s = _
  rw [execCfromidx, colorFromIndex_of_toNat_eq h]; rfl

theorem exec_cfromidx_of_four_le {idx : Byte} (h : 4 ≤ idx.toNat) :
    exec (.cfromidx idx) s = .next (s.reply (.error .indexOutOfRange)) := by
  change execCfromidx idx s = _
  rw [execCfromidx, colorFromIndex_of_four_le h]; rfl

/-! ## `UNPACKIDX`, `IDXAT` and `SETIDXAT` (rules R117 to R119) -/

theorem exec_unpackidx (byte : Byte) :
    exec (.unpackidx byte) s = .next (s.reply (.ok ((lanes byte).map indexByte))) := rfl

theorem exec_idxat_of_lt (byte : Byte) {pos : Byte} (h : pos.toNat < 4) :
    exec (.idxat byte pos) s = .next (s.reply (.ok [indexByte (indexAt byte (low2 pos))])) := by
  change execIdxat byte pos s = _
  rw [execIdxat, (atLeast4_eq_false_iff pos).mpr h]; rfl

theorem exec_idxat_of_four_le (byte : Byte) {pos : Byte} (h : 4 ≤ pos.toNat) :
    exec (.idxat byte pos) s = .next (s.reply (.error .positionOutOfRange)) :=
  if_pos ((atLeast4_iff pos).mpr h)

theorem exec_setidxat_of_lt (byte : Byte) {pos idx : Byte} (hpos : pos.toNat < 4) (hidx : idx.toNat < 4) :
    exec (.setidxat byte pos idx) s = .next (s.reply (.ok [setIndexAt byte (low2 pos) (low2 idx)])) := by
  change execSetidxat byte pos idx s = _
  rw [execSetidxat, (atLeast4_eq_false_iff pos).mpr hpos, (atLeast4_eq_false_iff idx).mpr hidx]; rfl

/-- The position is checked first: the index has no part in this answer. -/
theorem exec_setidxat_of_four_le_position (byte : Byte) {pos : Byte} (idx : Byte) (h : 4 ≤ pos.toNat) :
    exec (.setidxat byte pos idx) s = .next (s.reply (.error .positionOutOfRange)) :=
  if_pos ((atLeast4_iff pos).mpr h)

theorem exec_setidxat_of_four_le_index (byte : Byte) {pos idx : Byte} (hpos : pos.toNat < 4) (hidx : 4 ≤ idx.toNat) :
    exec (.setidxat byte pos idx) s = .next (s.reply (.error .indexOutOfRange)) := by
  change execSetidxat byte pos idx s = _
  rw [execSetidxat, (atLeast4_eq_false_iff pos).mpr hpos, (atLeast4_iff idx).mpr hidx]; rfl

end Commands

/-! ## The statements -/

/-- Settles O29: each of the four colors is found at its own index, and any other color is no entry of the table. -/
theorem cidxResult : Obligations.CidxResult := by
  unfold Obligations.CidxResult
  refine fun c s => ⟨rfl, ?white, ?black, ?purple, ?blue, ?other⟩
  case white => rintro rfl; exact exec_cidx_PAL s 0
  case black => rintro rfl; exact exec_cidx_PAL s 1
  case purple => rintro rfl; exact exec_cidx_PAL s 2
  case blue => rintro rfl; exact exec_cidx_PAL s 3
  case other =>
    exact fun white black purple blue => exec_cidx_of_forall_ne s (PAL_ne_of_ne_entries white black purple blue)

/-- Settles O30: an operand with the value of an index is answered with that index's color, a larger one with the error. -/
theorem cfromidxResult : Obligations.CfromidxResult := by
  unfold Obligations.CfromidxResult
  exact fun _ s => ⟨rfl, fun _ => exec_cfromidx_of_toNat_eq s, exec_cfromidx_of_four_le s⟩

/-- Settles O32: the four answers are the four fields, each a quotient of the byte. -/
theorem unpackidxResult : Obligations.UnpackidxResult := by
  unfold Obligations.UnpackidxResult
  intro byte s
  have field (k : Index) : (indexByte (indexAt byte k)).toNat = byte.toNat / 4 ^ k.toNat % 4 := by
    rw [indexByte_toNat, indexAt_toNat]
  have top : byte.toNat / 64 < 4 := by omega
  exact ⟨rfl, _, _, _, _, exec_unpackidx s byte, (field 0).trans (by simp), field 1, field 2,
    (field 3).trans (Nat.mod_eq_of_lt top)⟩

/-- Settles O33: below 4 the answer is the field at the position, from 4 on the position is refused. -/
theorem idxatResult : Obligations.IdxatResult := by
  unfold Obligations.IdxatResult
  refine fun byte pos s => ⟨rfl, fun hpos => ⟨_, exec_idxat_of_lt s byte hpos, ?value⟩, exec_idxat_of_four_le s byte⟩
  case value => rw [indexByte_toNat, indexAt_toNat, low2_toNat hpos]

/-- Settles O34: the answer is the byte with one field replaced; the position is refused before the index is looked at. -/
theorem setidxatResult : Obligations.SetidxatResult := by
  unfold Obligations.SetidxatResult
  refine fun byte pos idx s => ⟨rfl, fun hpos hidx => ⟨_, exec_setidxat_of_lt s byte hpos hidx, ?fields⟩,
    exec_setidxat_of_four_le_position s byte idx, exec_setidxat_of_four_le_index s byte⟩
  case fields =>
    intro k hk
    rw [setIndexAt_toNat_field _ _ _ hk, low2_toNat hpos, low2_toNat hidx]

end Sys2Proof.Machine
end

