-- ==== Sys2Proof/Proofs/FrameGeometry.lean ====
section
/-! The geometry of a frame by value (10_state.md rule R24, 20_memory.md rules R42 to R45): its sizes and the mapper are exact at
their widths, an in-bounds pixel lies inside BUF, and no two pixels share a field. -/

namespace Sys2Proof.Machine

/-! ## Sizes -/

theorem size_mul_size_le (n : Byte) : n.toNat * n.toNat ≤ 65025 := by
  have side : n.toNat ≤ 255 := Nat.le_of_lt_succ n.isLt
  exact Nat.mul_le_mul side side

/-- The largest frame has fewer than 2^16 pixels, so the product does not wrap. -/
theorem totalPixels_toNat (n : Byte) : (totalPixels n).toNat = n.toNat * n.toNat := by
  have := size_mul_size_le n
  simp only [totalPixels, BitVec.toNat_mul, BitVec.toNat_setWidth]
  rw [Nat.mod_eq_of_lt (show n.toNat < 2 ^ 16 by omega), Nat.mod_eq_of_lt (by omega)]

theorem totalBytes_toNat (n : Byte) : (totalBytes n).toNat = (n.toNat * n.toNat + 3) / 4 := by
  have := size_mul_size_le n
  simp [totalBytes, BitVec.toNat_udiv, totalPixels_toNat]
  omega

/-- The byte of a pixel number lies inside BUF. -/
theorem div_four_lt_totalBytes {n : Byte} {p : Nat} (h : p < n.toNat * n.toNat) : p / 4 < (totalBytes n).toNat := by
  rw [totalBytes_toNat]; omega

/-! ## In-bounds coordinates -/

theorem inBounds_iff {n x y : Byte} : inBounds n x y = true ↔ x.toNat < n.toNat ∧ y.toNat < n.toNat := by
  simp [inBounds, BitVec.lt_def]

theorem inBounds_eq_false_iff {n x y : Byte} : inBounds n x y = false ↔ ¬ (x.toNat < n.toNat ∧ y.toNat < n.toNat) := by
  rw [← inBounds_iff, Bool.not_eq_true]

section InBounds
variable {n x y : Byte} (hx : x.toNat < n.toNat) (hy : y.toNat < n.toNat)
include hx hy

/-- Row `y` ends before pixel number `SIZE * SIZE`. -/
theorem rowMajor_lt : y.toNat * n.toNat + x.toNat < n.toNat * n.toNat := calc
  y.toNat * n.toNat + x.toNat < y.toNat * n.toNat + n.toNat := Nat.add_lt_add_left hx _
  _ = (y.toNat + 1) * n.toNat := (Nat.succ_mul _ _).symm
  _ ≤ n.toNat * n.toNat := Nat.mul_le_mul_right _ hy

theorem flatPosition_toNat : (flatPosition n x y).toNat = y.toNat * n.toNat + x.toNat := by
  have := rowMajor_lt hx hy
  have := size_mul_size_le n
  have : y.toNat < 2 ^ 16 ∧ n.toNat < 2 ^ 16 ∧ x.toNat < 2 ^ 16 := by omega
  simp (disch := omega) only [flatPosition, BitVec.toNat_add, BitVec.toNat_mul, BitVec.toNat_setWidth, Nat.mod_eq_of_lt]

theorem pixelMap_byte_toNat : (pixelMap n x y).1.toNat = (y.toNat * n.toNat + x.toNat) / 4 := by
  have := rowMajor_lt hx hy
  have := size_mul_size_le n
  simp only [pixelMap, BitVec.extractLsb'_toNat, flatPosition_toNat hx hy]
  omega

theorem pixelMap_field_toNat : (pixelMap n x y).2.toNat = (y.toNat * n.toNat + x.toNat) % 4 := by
  simp only [pixelMap, BitVec.extractLsb'_toNat, flatPosition_toNat hx hy]
  omega

theorem pixelMap_field_eq_ofNat : (pixelMap n x y).2 = BitVec.ofNat 2 ((y.toNat * n.toNat + x.toNat) % 4) :=
  BitVec.eq_of_toNat_eq (by rw [pixelMap_field_toNat hx hy, BitVec.toNat_ofNat, Nat.mod_mod])

/-- An in-bounds pixel maps inside BUF. -/
theorem pixelMap_lt_totalBytes : (pixelMap n x y).1.toNat < (totalBytes n).toNat := by
  rw [pixelMap_byte_toNat hx hy]
  exact div_four_lt_totalBytes (rowMajor_lt hx hy)

/-- Byte and field give the flat position, of which the row is the quotient by the side length and the column the remainder. -/
theorem pixelMap_injective {x' y' : Byte} (hx' : x'.toNat < n.toNat) (hy' : y'.toNat < n.toNat)
    (h : pixelMap n x' y' = pixelMap n x y) : x' = x ∧ y' = y := by
  have byte := congrArg (·.1.toNat) h
  have field := congrArg (·.2.toNat) h
  simp only [pixelMap_byte_toNat, pixelMap_field_toNat, hx, hy, hx', hy'] at byte field
  have position : x'.toNat + n.toNat * y'.toNat = x.toNat + n.toNat * y.toNat := by
    rw [Nat.mul_comm n.toNat, Nat.mul_comm n.toNat]; omega
  have column := congrArg (· % n.toNat) position
  have row := congrArg (· / n.toNat) position
  have side : 0 < n.toNat := Nat.zero_lt_of_lt hx
  simp only [Nat.add_mul_mod_self_left, Nat.mod_eq_of_lt, hx, hx'] at column
  simp only [Nat.add_mul_div_left _ _ side, Nat.div_eq_of_lt, hx, hx', Nat.zero_add] at row
  exact ⟨BitVec.eq_of_toNat_eq column, BitVec.eq_of_toNat_eq row⟩

end InBounds

end Sys2Proof.Machine
end

