-- ==== Sys2Proof/Proofs/FrameContents.lean ====
section
/-! What BUF holds, read by byte and by pixel (20_memory.md rules R41 to R47): after a response or an event, after the write of
one pixel, after a fill, and beyond the end of the frame. -/

namespace Sys2Proof.Machine

/-! ## Responses and events leave BUF -/

section Streams
variable (s : State) (a : Nat) (x y : Byte)
@[simp] theorem State.reply_byteAt (r : Response) : (s.reply r).byteAt a = s.byteAt a := rfl
@[simp] theorem State.reply_pixelAt (r : Response) : (s.reply r).pixelAt x y = s.pixelAt x y := rfl
@[simp] theorem State.emit_byteAt (p : Params) (e : Event) : (s.emit p e).byteAt a = s.byteAt a := by
  rw [State.byteAt, State.emit_buf]; rfl
@[simp] theorem State.emit_pixelAt (p : Params) (e : Event) : (s.emit p e).pixelAt x y = s.pixelAt x y := by
  rw [State.pixelAt, State.emit_byteAt, State.emit_size]; rfl
end Streams

/-! ## The index of a pixel -/

section InBounds
variable {s : State} {x y : Byte} (hx : x.toNat < s.size.toNat) (hy : y.toNat < s.size.toNat)
include hx hy

/-- Pixel number `p` is field `p mod 4` of byte `p div 4`. -/
theorem State.pixelAt_eq_indexAt :
    s.pixelAt x y = indexAt (s.byteAt ((y.toNat * s.size.toNat + x.toNat) / 4))
      (BitVec.ofNat 2 ((y.toNat * s.size.toNat + x.toNat) % 4)) := by
  rw [State.pixelAt, pixelMap_byte_toNat hx hy, pixelMap_field_eq_ofNat hx hy]

theorem State.pixelAt_toNat :
    (s.pixelAt x y).toNat = (s.byteAt ((y.toNat * s.size.toNat + x.toNat) / 4)).toNat
      / 4 ^ ((y.toNat * s.size.toNat + x.toNat) % 4) % 4 := by
  rw [State.pixelAt_eq_indexAt hx hy, indexAt_ofNat_toNat _ (Nat.mod_lt _ (by decide))]

/-- `PixRead` at an in-bounds pixel gives its index and does not fault. -/
theorem pixRead_pixelMap : pixRead (pixelMap s.size x y).1 (pixelMap s.size x y).2 s = .ok (s.pixelAt x y) :=
  pixRead_of_lt (pixelMap_lt_totalBytes hx hy)

end InBounds

/-! ## Writing one pixel (rule R47) -/

/-- The state that `PixWrite` leaves at an in-bounds pixel (`pixWrite_pixelMap`). -/
def State.setPixel (x y : Byte) (i : Index) (s : State) : State :=
  let a := (pixelMap s.size x y).1.toNat
  { s with buf := Memory.write s.buf a (setIndexAt (s.byteAt a) (pixelMap s.size x y).2 i) }

theorem pixWrite_pixelMap {s : State} {x y : Byte} (i : Index) (hx : x.toNat < s.size.toNat) (hy : y.toNat < s.size.toNat) :
    pixWrite (pixelMap s.size x y).1 (pixelMap s.size x y).2 i s = .ok (s.setPixel x y i) :=
  pixWrite_of_lt (pixelMap_lt_totalBytes hx hy)

section SetPixel
variable (x y : Byte) (i : Index) (s : State)
@[simp] theorem State.setPixel_active : (s.setPixel x y i).active = s.active := rfl
@[simp] theorem State.setPixel_size : (s.setPixel x y i).size = s.size := rfl
@[simp] theorem State.setPixel_cmd : (s.setPixel x y i).cmd = s.cmd := rfl
@[simp] theorem State.setPixel_rsp : (s.setPixel x y i).rsp = s.rsp := rfl
@[simp] theorem State.setPixel_evt : (s.setPixel x y i).evt = s.evt := rfl

variable {s} (wf : Memory.wf s.buf = true)
include wf

theorem State.byteAt_setPixel (a : Nat) : (s.setPixel x y i).byteAt a =
    if a = (pixelMap s.size x y).1.toNat then setIndexAt (s.byteAt a) (pixelMap s.size x y).2 i else s.byteAt a := by
  rw [State.byteAt, State.setPixel, Memory.read_write wf]
  split
  case isTrue here => rw [here]
  case isFalse => rfl

/-- The pixel that was written holds the new index; every other pixel has another field, which the write passes through. -/
theorem State.pixelAt_setPixel {x y x' y' : Byte} (hx : x.toNat < s.size.toNat) (hy : y.toNat < s.size.toNat)
    (hx' : x'.toNat < s.size.toNat) (hy' : y'.toNat < s.size.toNat) :
    (s.setPixel x y i).pixelAt x' y' = if x' = x ∧ y' = y then i else s.pixelAt x' y' := by
  rw [State.pixelAt, State.setPixel_size, State.byteAt_setPixel x y i wf]
  by_cases same : x' = x ∧ y' = y
  · obtain ⟨rfl, rfl⟩ := same
    simp
  rw [if_neg same]
  split
  case isTrue sameByte =>
    have otherField : (pixelMap s.size x' y').2 ≠ (pixelMap s.size x y).2 := fun sameField =>
      same (pixelMap_injective hx hy hx' hy' (Prod.ext (BitVec.eq_of_toNat_eq sameByte) sameField))
    exact indexAt_setIndexAt_of_ne _ _ otherField
  case isFalse => rfl

end SetPixel

/-! ## Filled frames (rules R130, R146) -/

/-- The fill index times `0b01010101`. -/
theorem fillByte_toNat (f : Index) : (fillByte f).toNat = f.toNat * 0x55 := by
  revert f; decide

@[simp] theorem indexAt_fillByte (f k : Index) : indexAt (fillByte f) k = f := by
  revert f k; decide

/-- A frame all of whose bytes are one fill byte holds the fill index in every pixel. -/
theorem State.pixelAt_of_filled {t : State} {f : Index} (filled : ∀ a < (totalBytes t.size).toNat, t.byteAt a = fillByte f)
    {x y : Byte} (hx : x.toNat < t.size.toNat) (hy : y.toNat < t.size.toNat) : t.pixelAt x y = f := by
  rw [State.pixelAt, filled _ (pixelMap_lt_totalBytes hx hy), indexAt_fillByte]

/-! ## Beyond the end of BUF -/

theorem Memory.read_of_forall_ne {a : Nat} : ∀ {m : List Host.Cell}, (∀ c ∈ m, c.1 ≠ a) → Memory.read m a = 0
  | [], _ => rfl
  | (k, b) :: t, h => by
    have hk : k ≠ a := h (k, b) (by simp)
    have ht : Memory.read t a = 0 := Memory.read_of_forall_ne fun c hc => h c (List.mem_cons_of_mem _ hc)
    simp [Memory.read, hk, ht]

/-- Under the invariant BUF lists no byte at or beyond `TOTALBYTES`. -/
theorem State.Inv.byteAt_of_totalBytes_le {s : State} (inv : s.Inv) {a : Nat} (h : (totalBytes s.size).toNat ≤ a) :
    s.byteAt a = 0 := by
  obtain ⟨-, inside, -⟩ := inv
  exact Memory.read_of_forall_ne fun c hc => Nat.ne_of_lt (Nat.lt_of_lt_of_le (inside c hc) h)

end Sys2Proof.Machine
end

