-- ==== Sys2Proof/Proofs/FrameLifecycle.lean ====
section
/-! Commands that find no frame or set a whole one (42_pixelframe.md rules R130, R132, R146): the check of `ACTIVE`, `CONSTRUCT`
and `FRESET`. -/

namespace Sys2Proof.Machine

/-! ## Before construction (rule R132) -/

/-- Each of the nine frame commands checks `ACTIVE` before anything else. -/
theorem exec_of_inactive {i : Instr} {s : State} (frameCommand : isPureCommand i.opcode = false)
    (notConstruct : i.opcode ≠ .construct) (h : s.active = false) : exec i s = .next (s.reply (.error .notActive)) := by
  cases i
  case construct => exact absurd rfl notConstruct
  case setpx | getpx | setpxc | getpxc | getraw | getidx | getcol | freset | batch => exact requireActive_of_inactive h
  all_goals cases frameCommand

/-- Settles O43: the nine commands are turned away by the check of `ACTIVE`. -/
theorem frameCommandsNeedActive : Obligations.FrameCommandsNeedActive := by
  unfold Obligations.FrameCommandsNeedActive
  exact fun _ _ => exec_of_inactive

/-! ## `CONSTRUCT` (rule R130) -/

/-- The zero-filled active frame that `CONSTRUCT` leaves (`exec_construct`). -/
def State.constructed (size : Byte) (s : State) : State :=
  { s with active := true, size := size, buf := Memory.fill (totalBytes size).toNat 0 }

section Constructed
variable (size : Byte) (s : State)

theorem exec_construct : exec (.construct size) s = .next ((s.constructed size).reply (.ok [])) := rfl

theorem State.byteAt_constructed (a : Nat) : (s.constructed size).byteAt a = 0 := by
  rw [State.byteAt, State.constructed, Memory.read_fill, ite_self]

theorem State.pixelAt_constructed (x y : Byte) : (s.constructed size).pixelAt x y = 0 := by
  rw [State.pixelAt, State.byteAt_constructed]
  exact indexAt_fillByte 0 _

theorem State.constructed_inv : (s.constructed size).Inv :=
  ⟨Memory.fill_wf (totalBytes size).toNat 0, fun _ => Memory.mem_fill (n := (totalBytes size).toNat) (v := 0), nofun⟩

end Constructed

/-- Settles O42: a fill with 0x00 reads 0x00 at every offset, so every pixel holds 0. -/
theorem constructResult : Obligations.ConstructResult := by
  unfold Obligations.ConstructResult
  exact fun size s => ⟨rfl, _, exec_construct size s, rfl, rfl, s.byteAt_constructed size, s.pixelAt_constructed size,
    s.constructed_inv size, rfl, rfl, rfl⟩

/-! ## `FRESET` (rule R146) -/

/-- The frame that `FRESET` leaves, every byte of BUF overwritten with the template byte (`exec_freset_of_lt`). -/
def State.filled (f : Index) (s : State) : State :=
  { s with buf := Memory.fill (totalBytes s.size).toNat (fillByte f) }

section Filled
variable (f : Index) (s : State)
@[simp] theorem State.filled_active : (s.filled f).active = s.active := rfl
@[simp] theorem State.filled_size : (s.filled f).size = s.size := rfl
@[simp] theorem State.filled_cmd : (s.filled f).cmd = s.cmd := rfl
@[simp] theorem State.filled_rsp : (s.filled f).rsp = s.rsp := rfl
@[simp] theorem State.filled_evt : (s.filled f).evt = s.evt := rfl

theorem State.byteAt_filled (a : Nat) :
    (s.filled f).byteAt a = if a < (totalBytes s.size).toNat then fillByte f else 0 := Memory.read_fill _ _ _

theorem State.byteAt_filled_of_lt {a : Nat} (h : a < (totalBytes s.size).toNat) : (s.filled f).byteAt a = fillByte f := by
  rw [State.byteAt_filled, if_pos h]

/-- Beyond the end of BUF nothing is filled, and nothing was listed before. -/
theorem State.byteAt_filled_of_le (inv : s.Inv) {a : Nat} (h : (totalBytes s.size).toNat ≤ a) :
    (s.filled f).byteAt a = s.byteAt a := by
  rw [State.byteAt_filled, if_neg (Nat.not_lt.mpr h), inv.byteAt_of_totalBytes_le h]

theorem State.pixelAt_filled {x y : Byte} (hx : x.toNat < s.size.toNat) (hy : y.toNat < s.size.toNat) :
    (s.filled f).pixelAt x y = f :=
  State.pixelAt_of_filled (fun _ => s.byteAt_filled_of_lt f) hx hy

end Filled

section Freset
variable {s : State} (active : s.active = true) {fill : Byte}
include active

theorem exec_freset_of_toNat_eq {f : Index} (h : fill.toNat = f.toNat) :
    exec (.freset fill) s = .next (((s.filled f).emit Config.params .frameReset).reply (.ok [])) := by
  have small : atLeast4 fill = false := (atLeast4_eq_false_iff fill).mpr (h ▸ f.isLt)
  change execFreset fill s = _
  rw [execFreset, fresetWith, requireActive_of_active active, small, low2_of_toNat_eq h]; rfl

theorem exec_freset_of_four_le (h : 4 ≤ fill.toNat) : exec (.freset fill) s = .next (s.reply (.error .indexOutOfRange)) := by
  change execFreset fill s = _
  rw [execFreset, fresetWith, requireActive_of_active active, (atLeast4_iff fill).mpr h]; rfl

end Freset

/-- Settles O51: every byte of BUF is the template byte, whose four fields are the fill index. -/
theorem fresetResult : Obligations.FresetResult := by
  unfold Obligations.FresetResult
  refine fun fill s => ⟨rfl, fun f active h => ⟨_, exec_freset_of_toNat_eq active h, ?bytes, ?beyond, ?pixels, ?frame⟩,
    exec_of_inactive rfl nofun, fun active => exec_freset_of_four_le active⟩
  case bytes =>
    intro a ha
    simp [s.byteAt_filled_of_lt f ha, fillByte_toNat]
  case beyond =>
    intro inv a ha
    simp [s.byteAt_filled_of_le f inv ha]
  case pixels =>
    intro x y hx hy
    simp [s.pixelAt_filled f hx hy]
  case frame => simp [active, Config.params]

end Sys2Proof.Machine
end

