-- ==== Sys2Proof/Proofs/PixelCommands.lean ====
section
/-! The four commands of one pixel (42_pixelframe.md rules R134 to R140): the checks in their order, the one field written and
the one event, and the index read. -/

namespace Sys2Proof.Machine

/-! ## The shared ends of the commands -/

section InBounds
variable {s : State} {x y : Byte} (hx : x.toNat < s.size.toNat) (hy : y.toNat < s.size.toNat)
include hx hy

theorem writePixel_of_inBounds (p : Params) (i : Index) : writePixel p x y i s =
    .next (((s.setPixel x y i).emit p (.pixelChanged x y (indexByte i))).reply (.ok [])) := by
  simp only [writePixel, pixWrite_pixelMap i hx hy]; rfl

theorem readPixel_of_inBounds (active : s.active = true) (k : Index → List Byte) :
    readPixel x y s k = .next (s.reply (.ok (k (s.pixelAt x y)))) := by
  have bounds : inBounds s.size x y = true := inBounds_iff.mpr ⟨hx, hy⟩
  simp only [readPixel, requireActive_of_active active, bounds, pixRead_pixelMap hx hy]; rfl

end InBounds

theorem readPixel_of_not_inBounds {s : State} {x y : Byte} (active : s.active = true)
    (h : ¬ (x.toNat < s.size.toNat ∧ y.toNat < s.size.toNat)) (k : Index → List Byte) :
    readPixel x y s k = .next (s.reply (.error .coordinatesOutOfBounds)) := by
  simp only [readPixel, requireActive_of_active active, inBounds_eq_false_iff.mpr h]; rfl

/-! ## `SETPX` and `SETPXC` (rules R134, R138) -/

section Write
variable {s : State} {x y : Byte} (active : s.active = true)
include active

theorem exec_setpx_of_inBounds {idx : Byte} (hx : x.toNat < s.size.toNat) (hy : y.toNat < s.size.toNat)
    (h : idx.toNat < 4) : exec (.setpx x y idx) s = writePixel Config.params x y (low2 idx) s := by
  have checked : pixelWriteError s.size x y idx = none := pixelWriteError_eq_none_iff.mpr ⟨inBounds_iff.mpr ⟨hx, hy⟩, h⟩
  change execSetpx x y idx s = _
  rw [execSetpx, setpxWith, requireActive_of_active active, checked]

theorem exec_setpx_of_error {idx : Byte} {e : CmdError} (h : pixelWriteError s.size x y idx = some e) :
    exec (.setpx x y idx) s = .next (s.reply (.error e)) := by
  change execSetpx x y idx s = _
  rw [execSetpx, setpxWith, requireActive_of_active active, h]; rfl

theorem exec_setpxc_PAL_of_inBounds (i : Index) (hx : x.toNat < s.size.toNat) (hy : y.toNat < s.size.toNat) :
    exec (.setpxc x y (PAL i)) s = writePixel Config.params x y i s := by
  have bounds : inBounds s.size x y = true := inBounds_iff.mpr ⟨hx, hy⟩
  change execSetpxc x y (PAL i) s = _
  simp only [execSetpxc, setpxcWith, requireActive_of_active active, colorIndex_PAL, bounds]; rfl

theorem exec_setpxc_PAL_of_not_inBounds (i : Index) (h : ¬ (x.toNat < s.size.toNat ∧ y.toNat < s.size.toNat)) :
    exec (.setpxc x y (PAL i)) s = .next (s.reply (.error .coordinatesOutOfBounds)) := by
  change execSetpxc x y (PAL i) s = _
  simp only [execSetpxc, setpxcWith, requireActive_of_active active, colorIndex_PAL, inBounds_eq_false_iff.mpr h]; rfl

/-- The color is resolved first: the coordinates have no part in this answer. -/
theorem exec_setpxc_of_forall_ne {c : Color} (h : ∀ i : Index, PAL i ≠ c) :
    exec (.setpxc x y c) s = .next (s.reply (.error .colorNotInPalette)) := by
  change execSetpxc x y c s = _
  rw [execSetpxc, setpxcWith, requireActive_of_active active, colorIndex_of_forall_ne h]; rfl

/-- What `SETPX` and `SETPXC` leave once their checks have passed. -/
theorem writePixel_result (i : Index) (hx : x.toNat < s.size.toNat) (hy : y.toNat < s.size.toNat)
    (wf : Memory.wf s.buf = true) : ∃ t, writePixel Config.params x y i s = .next t ∧
      (∀ a : Nat, t.byteAt a =
        if a = (pixelMap s.size x y).1.toNat then setIndexAt (s.byteAt a) (pixelMap s.size x y).2 i else s.byteAt a) ∧
      (pixelMap s.size x y).1.toNat = (y.toNat * s.size.toNat + x.toNat) / 4 ∧
      (pixelMap s.size x y).2.toNat = (y.toNat * s.size.toNat + x.toNat) % 4 ∧
      t.active = true ∧ t.size = s.size ∧ t.cmd = s.cmd ∧
      t.rsp = s.rsp ++ [.ok []] ∧ t.evt = s.evt ++ [.pixelChanged x y (indexByte i)] ∧
      ∀ x' y' : Byte, x'.toNat < s.size.toNat → y'.toNat < s.size.toNat →
        t.pixelAt x' y' = if x' = x ∧ y' = y then i else s.pixelAt x' y' :=
  ⟨_, writePixel_of_inBounds hx hy Config.params i,
    fun a => by simp only [State.reply_byteAt, State.emit_byteAt, State.byteAt_setPixel x y i wf],
    pixelMap_byte_toNat hx hy, pixelMap_field_toNat hx hy, active, rfl, rfl, rfl, rfl,
    fun x' y' hx' hy' => by
      simp only [State.reply_pixelAt, State.emit_pixelAt, State.pixelAt_setPixel i wf hx hy hx' hy']⟩

end Write

/-- Settles O44: in bounds and below 4 the command is the write of one pixel; the bounds are checked before the index. -/
theorem setpxResult : Obligations.SetpxResult := by
  unfold Obligations.SetpxResult
  refine fun x y idx s => ⟨rfl, ?written, exec_of_inactive rfl nofun, ?outOfBounds, ?badIndex⟩
  case written =>
    intro i active hx hy hidx wf
    obtain rfl : low2 idx = i := low2_of_toNat_eq hidx
    have small : idx.toNat < 4 := hidx ▸ (low2 idx).isLt
    have written := writePixel_result active (low2 idx) hx hy wf
    rwa [indexByte_low2 small, ← exec_setpx_of_inBounds active hx hy small] at written
  case outOfBounds =>
    exact fun active h => exec_setpx_of_error active (pixelWriteError_of_not_inBounds (inBounds_eq_false_iff.mpr h))
  case badIndex =>
    intro active hx hy h
    refine exec_setpx_of_error active ?_
    rw [pixelWriteError_of_inBounds (inBounds_iff.mpr ⟨hx, hy⟩), if_pos h]

/-- Settles O45: the write of `SETPX` with the index found for the color; the color is resolved before the bounds are checked. -/
theorem setpxcResult : Obligations.SetpxcResult := by
  unfold Obligations.SetpxcResult
  refine fun x y s => ⟨fun _ => rfl, ?written, fun _ => exec_of_inactive rfl nofun,
    fun _ active h => exec_setpxc_of_forall_ne active h, fun i active h => exec_setpxc_PAL_of_not_inBounds active i h⟩
  case written =>
    intro i active hx hy wf
    rw [exec_setpxc_PAL_of_inBounds active i hx hy]
    exact writePixel_result active i hx hy wf

/-! ## `GETPX` and `GETPXC` (rules R136, R140) -/

/-- Settles O46: the shared read answers the index of the pixel, a field of its byte. -/
theorem getpxResult : Obligations.GetpxResult := by
  unfold Obligations.GetpxResult
  exact fun x y s => ⟨rfl,
    fun active hx hy => ⟨_, readPixel_of_inBounds hx hy active _, (indexByte_toNat _).trans (s.pixelAt_toNat hx hy)⟩,
    exec_of_inactive rfl nofun, fun active h => readPixel_of_not_inBounds active h _⟩

/-- Settles O47: the shared read answers the color of the pixel's index. -/
theorem getpxcResult : Obligations.GetpxcResult := by
  unfold Obligations.GetpxcResult
  exact fun x y s => ⟨rfl,
    fun active hx hy => ⟨_, readPixel_of_inBounds hx hy active _, s.pixelAt_toNat hx hy⟩,
    exec_of_inactive rfl nofun, fun active h => readPixel_of_not_inBounds active h _⟩

end Sys2Proof.Machine
end

