-- ==== Sys2Proof/Proofs/BulkReads.lean ====
section
/-! The three commands that read the whole frame (42_pixelframe.md rules R142 to R145): how long their lists are and what stands
at each place. -/

namespace Sys2Proof.Machine

/-! ## The indices of all pixels -/

/-- BUF has at least as many fields as the frame has pixels. -/
theorem allIndices_length (s : State) : (allIndices s).length = s.size.toNat * s.size.toNat := by
  rw [allIndices, List.length_take, flatMap_lanes_length, bufBytes_length, totalBytes_toNat, totalPixels_toNat]
  omega

theorem allIndices_getElem?_eq_indexAt {s : State} {p : Nat} (h : p < s.size.toNat * s.size.toNat) :
    (allIndices s)[p]? = some (indexAt (s.byteAt (p / 4)) (BitVec.ofNat 2 (p % 4))) :=
  allIndices_getElem? (by rwa [totalPixels_toNat]) (div_four_lt_totalBytes h)

/-- Place `p` of the list by value. -/
theorem allIndices_getElem?_toNat {s : State} {p : Nat} (h : p < s.size.toNat * s.size.toNat) :
    (allIndices s)[p]?.map BitVec.toNat = some ((s.byteAt (p / 4)).toNat / 4 ^ (p % 4) % 4) := by
  rw [allIndices_getElem?_eq_indexAt h, Option.map_some, indexAt_ofNat_toNat _ (Nat.mod_lt _ (by decide))]

/-- The list is in row-major order. -/
theorem allIndices_getElem?_rowMajor {s : State} {x y : Byte} (hx : x.toNat < s.size.toNat) (hy : y.toNat < s.size.toNat) :
    (allIndices s)[y.toNat * s.size.toNat + x.toNat]? = some (s.pixelAt x y) := by
  rw [allIndices_getElem?_eq_indexAt (rowMajor_lt hx hy), State.pixelAt_eq_indexAt hx hy]

/-! ## The commands -/

section Active
variable {s : State} (active : s.active = true)
include active

theorem exec_getraw_of_active : exec .getraw s = .next (s.reply (.ok (bufBytes s))) := requireActive_of_active active

theorem exec_getidx_of_active : exec .getidx s = .next (s.reply (.ok ((allIndices s).map indexByte))) :=
  requireActive_of_active active

theorem exec_getcol_of_active :
    exec .getcol s = .next (s.reply (.ok ((allIndices s).flatMap fun i => colorBytes (PAL i)))) :=
  requireActive_of_active active

end Active

/-- Settles O48: the list of bytes is BUF read at each offset. -/
theorem getrawResult : Obligations.GetrawResult := by
  unfold Obligations.GetrawResult
  refine fun s => ⟨rfl, fun active => ⟨_, exec_getraw_of_active active, ?length, ?bytes⟩, exec_of_inactive rfl nofun⟩
  case length => rw [bufBytes_length, totalBytes_toNat]
  case bytes => exact fun a ha => bufBytes_getElem? (by rwa [bufBytes_length] at ha)

/-- Settles O49: one byte per pixel, in row-major order. -/
theorem getidxResult : Obligations.GetidxResult := by
  unfold Obligations.GetidxResult
  refine fun s => ⟨rfl, fun active => ⟨_, exec_getidx_of_active active, ?length, ?values, ?pixels⟩,
    exec_of_inactive rfl nofun⟩
  case length => rw [List.length_map, allIndices_length]
  case values =>
    intro p hp
    rw [List.length_map, allIndices_length] at hp
    rw [List.getElem?_map, Option.map_map, ← allIndices_getElem?_toNat hp]
    exact congrArg (Option.map · _) (funext indexByte_toNat)
  case pixels =>
    intro x y hx hy
    rw [List.getElem?_map, allIndices_getElem?_rowMajor hx hy]; rfl

/-- Settles O50: the color of every index, three bytes each. -/
theorem getcolResult : Obligations.GetcolResult := by
  unfold Obligations.GetcolResult
  refine fun s => ⟨rfl, fun active => ⟨_, exec_getcol_of_active active, allIndices_length s, ?length, ?values⟩,
    exec_of_inactive rfl nofun⟩
  case length => simp [List.length_flatMap, colorBytes, allIndices_length, Nat.mul_comm]
  case values => exact fun p hp => allIndices_getElem?_toNat (by rwa [allIndices_length] at hp)

end Sys2Proof.Machine
end

