-- ==== Sys2Proof/Proofs/AtomicBatch.lean ====
section
/-! The two values of `P_BATCH_ATOMIC` (42_pixelframe.md rules R148, R149): the error of a batch is that of its checks alone, so
both values answer alike, and only the writes before the failing element differ. -/

namespace Sys2Proof.Machine

/-- The loop never faults, and its error is that of the checks alone: no write changes `SIZE`, which is all the checks read. -/
theorem batchLoop_eq_ok : ∀ (l : List Triple) (s : State), ∃ t, batchLoop l s = .ok (t, batchCheck s.size l)
  | [], s => ⟨s, rfl⟩
  | (x, y, idx) :: l, s => by
    cases checked : pixelWriteError s.size x y idx with
    | some e => exact ⟨s, by rw [batchLoop_cons_error checked, batchCheck, List.findSome?_cons, checked]⟩
    | none =>
      obtain ⟨bounds, -⟩ := pixelWriteError_eq_none_iff.mp checked
      obtain ⟨hx, hy⟩ := inBounds_iff.mp bounds
      obtain ⟨t, ht⟩ := batchLoop_eq_ok l (s.setPixel x y (low2 idx))
      refine ⟨t, ?_⟩
      simp only [batchLoop, checked, pixWrite_pixelMap (low2 idx) hx hy, ht, batchCheck, List.findSome?_cons,
        State.setPixel_size]

section Batch
variable {xs ys ids : List Byte} {s : State} (active : s.active = true) (p : Params)
include active

theorem batchWith_of_lengths_differ (h : sameLengths xs ys ids = false) :
    batchWith p xs ys ids s = .next (s.reply (.error .arrayLengthMismatch)) := by
  simp only [batchWith, requireActive_of_active active, h]; rfl

variable (lengths : sameLengths xs ys ids = true) {r : State}
  (loop : batchLoop (triples xs ys ids) s = .ok (r, batchCheck s.size (triples xs ys ids)))
include lengths loop

/-- An atomic batch finds the error before any write, the other one after those of the earlier elements. -/
theorem batchWith_of_check_error {e : CmdError} (h : batchCheck s.size (triples xs ys ids) = some e) :
    batchWith p xs ys ids s = .next ((if p.batchAtomic then s else r).reply (.error e)) := by
  simp only [batchWith, requireActive_of_active active, lengths, loop, h]
  cases p.batchAtomic <;> rfl

theorem batchWith_of_check_none (h : batchCheck s.size (triples xs ys ids) = none) :
    batchWith p xs ys ids s = .next ((r.emit p (.batchSet (countByte xs))).reply (.ok [])) := by
  simp only [batchWith, requireActive_of_active active, lengths, loop, h]
  cases p.batchAtomic <;> rfl

end Batch

/-- All a batch can answer: an error or OK with one event, whatever the parameters; the frame with the writes of the loop, but
after an error of an atomic batch the frame as it was. -/
theorem batchWith_cases (xs ys ids : List Byte) (s : State) : ∃ r : State, r = { s with buf := r.buf } ∧
    ((∃ e, ∀ p, batchWith p xs ys ids s = .next ((if p.batchAtomic then s else r).reply (.error e))) ∨
      ∀ p, batchWith p xs ys ids s = .next ((r.emit p (.batchSet (countByte xs))).reply (.ok []))) := by
  obtain active | inactive := Bool.eq_false_or_eq_true s.active
  case inr =>
    exact ⟨s, rfl, .inl ⟨.notActive, fun _ => (requireActive_of_inactive inactive).trans (by rw [ite_self])⟩⟩
  cases lengths : sameLengths xs ys ids with
  | false =>
    exact ⟨s, rfl, .inl ⟨.arrayLengthMismatch, fun p =>
      (batchWith_of_lengths_differ active p lengths).trans (by rw [ite_self])⟩⟩
  | true =>
    obtain ⟨r, loop⟩ := batchLoop_eq_ok (triples xs ys ids) s
    refine ⟨r, batchLoop_frame _ _ _ _ loop, ?_⟩
    cases checked : batchCheck s.size (triples xs ys ids) with
    | some e => exact .inl ⟨e, fun p => batchWith_of_check_error active p lengths loop checked⟩
    | none => exact .inr fun p => batchWith_of_check_none active p lengths loop checked

/-- Settles O53: after a success the two states are one; after an error they differ at most in BUF. -/
theorem atomicBatchDiffersOnlyInBufAfterFailure : Obligations.AtomicBatchDiffersOnlyInBufAfterFailure := by
  unfold Obligations.AtomicBatchDiffersOnlyInBufAfterFailure
  intro p xs ys ids s
  obtain ⟨r, frame, ⟨e, failed⟩ | succeeded⟩ := batchWith_cases xs ys ids s
  case inl =>
    refine ⟨_, _, failed _, failed _, ?_⟩
    rw [frame]
    simp
  case inr =>
    refine ⟨_, _, succeeded _, succeeded _, ?_⟩
    rw [frame]
    simp [State.emit]

end Sys2Proof.Machine
end

