-- ==== Sys2Proof/Proofs/ResetStep.lean ====
section
/-! The step that takes an RST (70_reset_and_hazards.md rule R190): the decoder asks for more on bytes that end inside a command,
so an RST right behind such bytes is what the block fetches, and the bytes are dropped with it. -/

namespace Sys2Proof

/-! ## Bytes that end inside a command (30_encoding.md rules R62, R68) -/

/-- Cutting a payload off asks for more when the payload is cut short or its continuation asks for more. -/
theorem takePayload_eq_needMore {n : Nat} {t : List Byte} {k : List Byte → List Byte → Decoded}
    (h : n ≤ t.length → k (t.take n) (t.drop n) = .needMore) : takePayload n t k = .needMore := by
  unfold takePayload
  split
  case isTrue => rfl
  case isFalse enough => exact h (Nat.le_of_not_lt enough)

/-- Behind the opcode of a command, bytes short of the length that `cmdLen` reads, if it reads one yet, are not enough for any
of the decoder's cuts. -/
theorem decode_of_opcode_eq_needMore {b : Byte} {o : Opcode} {t : List Byte} (hb : Opcode.ofByte b = some o)
    (short : ∀ n, cmdLen (b :: t) = some n → t.length + 1 < n) : decode (b :: t) = .needMore := by
  cases o <;> simp only [decode, hb] <;>
    simp only [cmdLen, hb, Opcode.format, Option.some.injEq, forall_eq'] at short
  -- no operands: the opcode alone is the whole command
  case getraw | getidx | getcol => omega
  case packidx | c2i | i2c =>
    split
    · simp only [Option.some.injEq, forall_eq', List.length_cons] at short
      exact takePayload_eq_needMore fun _ => by omega
    · rfl
  case batch =>
    split
    · simp only [Option.some.injEq, forall_eq', List.length_cons] at short
      refine takePayload_eq_needMore fun xs => takePayload_eq_needMore fun ys => takePayload_eq_needMore fun ids => ?_
      simp only [List.length_drop] at ys ids
      omega
    · rfl
  -- a fixed number of operand bytes
  all_goals
    split
    · simp only [List.length_cons] at short
      omega
    · rfl

/-- On bytes that end inside a command the decoder asks for more: they do not start with a reserved opcode, whose length of 1
is there with the byte itself. -/
theorem decode_eq_needMore_of_incomplete {bs : List Byte}
    (h : cmdLen bs = none ∨ ∃ n, cmdLen bs = some n ∧ bs.length < n) : decode bs = .needMore := by
  have short : ∀ n, cmdLen bs = some n → bs.length < n := by
    intro n hn
    obtain noLength | ⟨m, hm, lt⟩ := h
    · exact nomatch noLength.symm.trans hn
    · rwa [Option.some.inj (hm.symm.trans hn)] at lt
  cases bs with
  | nil => rfl
  | cons b t =>
    cases hb : Opcode.ofByte b with
    | none => exact absurd (short 1 (by simp only [cmdLen, hb])) (by simp)
    | some o => exact decode_of_opcode_eq_needMore hb short

end Sys2Proof

namespace Sys2Proof.Machine

/-! ## The step that takes an RST -/

/-- Behind bytes that end inside a command the block fetches the RST. -/
theorem fetch_of_incomplete {bs : List Byte} (h : cmdLen bs = none ∨ ∃ n, cmdLen bs = some n ∧ bs.length < n)
    (t : List HostAction) : fetch (bs.map .send ++ .rst :: t) = .rst t := by
  have before : bytesBeforeRst (bs.map .send ++ .rst :: t) = bs := by
    rw [bytesBeforeRst_send_append, bytesBeforeRst, List.append_nil]
  rw [fetch, before, decode_eq_needMore_of_incomplete h, fromRst_send_append]
  rfl

/-- The bytes in front of the RST leave CMD with it; nothing is added to RSP or EVT. -/
theorem step_of_rst {s : State} {bs : List Byte} {t : List HostAction} (hs : s.cmd = bs.map .send ++ .rst :: t)
    (h : cmdLen bs = none ∨ ∃ n, cmdLen bs = some n ∧ bs.length < n) :
    step s = .next (State.assertRst { s with cmd := t }) := by
  rw [step, hs, fetch_of_incomplete h]

/-- RST leaves a block alone that is in the reset state already, whatever is on its streams. -/
theorem State.assertRst_eq_self {s : State} (active : s.active = false) (size : s.size = 0) (buf : s.buf = []) :
    s.assertRst = s := by
  rw [State.assertRst, ← active, ← size, ← buf]

/-- Settles O9: an RST is taken with the partly received command in front of it, and one at a command boundary, with no bytes in
front of it, resets a block that holds the reset values already. -/
theorem rstResetsTheBlock : Obligations.RstResetsTheBlock := by
  unfold Obligations.RstResetsTheBlock
  refine ⟨fun _ _ _ => step_of_rst, fun s t active size buf hs => ?again⟩
  case again =>
    calc step s = .next (State.assertRst { s with cmd := t }) := step_of_rst (bs := []) hs (.inl rfl)
      _ = .next { s with cmd := t } := congrArg _ (State.assertRst_eq_self active size buf)

end Sys2Proof.Machine
end

