-- ==== Sys2Proof/Proofs/Encoding.lean ====
section
/-! The decoder and the encoder as inverse functions (30_encoding.md rules R60 to R64, R78): what encodes decodes again before any
rest, and every byte list that holds a complete command starts with an encoding. -/

namespace Sys2Proof

open Sys2Proof.Machine (pack pack_toNat colorBytes_pack color_red_toNat color_green_toNat color_blue_toNat)

/-! ## Colors on the stream (rule R63) -/

theorem colorOfBytes_toNat (c2 c1 c0 : Byte) :
    (colorOfBytes c2 c1 c0).toNat = c2.toNat * 65536 + c1.toNat * 256 + c0.toNat := by
  have high : (c2 ++ c1).toNat = c2.toNat <<< 8 + c1.toNat := by
    rw [BitVec.toNat_append, Nat.shiftLeft_add_eq_or_of_lt c1.isLt]
  calc (colorOfBytes c2 c1 c0).toNat
      = (c2 ++ c1).toNat <<< 8 + c0.toNat := by
        rw [colorOfBytes, BitVec.toNat_append, Nat.shiftLeft_add_eq_or_of_lt c0.isLt]
    _ = c2.toNat * 65536 + c1.toNat * 256 + c0.toNat := by rw [high]; omega

/-- Assembling the bytes of a color is packing them as its channels. -/
theorem colorOfBytes_eq_pack (c2 c1 c0 : Byte) : colorOfBytes c2 c1 c0 = pack c2 c1 c0 :=
  BitVec.eq_of_toNat_eq ((colorOfBytes_toNat c2 c1 c0).trans (pack_toNat c2 c1 c0).symm)

@[simp] theorem colorBytes_colorOfBytes (c2 c1 c0 : Byte) : colorBytes (colorOfBytes c2 c1 c0) = [c2, c1, c0] := by
  rw [colorOfBytes_eq_pack, colorBytes_pack]

/-- A color is put together again from its three channels. -/
@[simp] theorem colorOfBytes_channels (c : Color) :
    colorOfBytes (c.extractLsb' 16 8) (c.extractLsb' 8 8) (c.extractLsb' 0 8) = c := by
  apply BitVec.eq_of_toNat_eq
  rw [colorOfBytes_toNat, color_red_toNat, color_green_toNat, color_blue_toNat]
  omega

@[simp] theorem colorsOfBytes_flatMap_colorBytes : ∀ cs : List Color, colorsOfBytes (cs.flatMap colorBytes) = cs
  | [] => rfl
  | c :: cs => by
    rw [List.flatMap_cons]
    simp [colorBytes, colorsOfBytes, colorsOfBytes_flatMap_colorBytes cs]

@[simp] theorem flatMap_colorBytes_length (cs : List Color) : (cs.flatMap colorBytes).length = 3 * cs.length := by
  simp [List.length_flatMap, colorBytes, Nat.mul_comm]

/-- A payload of whole colors is the bytes of its colors. -/
theorem exists_colors_of_length {n : Nat} : ∀ {p : List Byte}, p.length = 3 * n →
    ∃ cs : List Color, cs.length = n ∧ p = cs.flatMap colorBytes := by
  induction n with
  | zero => exact fun h => ⟨[], rfl, List.eq_nil_of_length_eq_zero h⟩
  | succ n ih =>
    intro p h
    match p, h with
    | c2 :: c1 :: c0 :: p, h =>
      have rest : p.length = 3 * n := by simp only [List.length_cons] at h; omega
      obtain ⟨cs, length, rfl⟩ := ih rest
      exact ⟨colorOfBytes c2 c1 c0 :: cs, by rw [List.length_cons, length], by simp⟩
    | [], h | [_], h | [_, _], h => simp only [List.length_cons, List.length_nil] at h; omega

/-- Settles O4: the three bytes are the base-256 digits of the color, and its channels are these bytes. -/
theorem colorTravelsMostSignificantFirst : Obligations.ColorTravelsMostSignificantFirst := by
  unfold Obligations.ColorTravelsMostSignificantFirst
  exact fun c2 c1 c0 => ⟨colorOfBytes_toNat c2 c1 c0, colorBytes_colorOfBytes c2 c1 c0⟩

/-! ## Count bytes -/

theorem fitsCount_iff {α : Type} {l : List α} : fitsCount l = true ↔ l.length ≤ 255 := decide_eq_true_iff

theorem fitsCount_of_length_eq {α : Type} {l : List α} {n : Byte} (h : l.length = n.toNat) : fitsCount l = true :=
  fitsCount_iff.mpr (h ▸ Nat.le_of_lt_succ n.isLt)

/-- The count of a list that fits it does not wrap. -/
theorem countByte_toNat {α : Type} {l : List α} (h : fitsCount l = true) : (countByte l).toNat = l.length := by
  have := fitsCount_iff.mp h
  rw [countByte, BitVec.toNat_ofNat]
  omega

theorem countByte_of_length_eq {α : Type} {l : List α} {n : Byte} (h : l.length = n.toNat) : countByte l = n := by
  rw [countByte, h, BitVec.ofNat_toNat, BitVec.setWidth_eq]

theorem wellFormed_batch_iff {xs ys ids : List Byte} : (Instr.batch xs ys ids).WellFormed ↔
    fitsCount xs = true ∧ fitsCount ys = true ∧ fitsCount ids = true := by
  simp only [Instr.WellFormed, Instr.wellFormed, Bool.and_eq_true, and_assoc]

/-! ## Decoding what was encoded -/

/-- Cutting off a payload that is all there. -/
theorem takePayload_append {n : Nat} {p : List Byte} (h : n = p.length) (t : List Byte)
    (k : List Byte → List Byte → Decoded) : takePayload n (p ++ t) k = k p t := by
  subst h
  simp [takePayload]

/-- The decoder inverts the encoder before any rest. -/
theorem decode_encode_append {i : Instr} (wf : i.WellFormed) (t : List Byte) : decode (encode i ++ t) = .cmd i t := by
  cases i
  case unpack c => exact congrArg (fun d => Decoded.cmd (.unpack d) t) (colorOfBytes_channels c)
  case cidx c => exact congrArg (fun d => Decoded.cmd (.cidx d) t) (colorOfBytes_channels c)
  case setpxc x y c => exact congrArg (fun d => Decoded.cmd (.setpxc x y d) t) (colorOfBytes_channels c)
  case packidx l => exact takePayload_append (k := fun p rest => .cmd (.packidx p) rest) (countByte_toNat wf) t
  case i2c l => exact takePayload_append (k := fun p rest => .cmd (.i2c p) rest) (countByte_toNat wf) t
  case c2i cs =>
    have length : 3 * (countByte cs).toNat = (cs.flatMap colorBytes).length := by
      rw [countByte_toNat wf, flatMap_colorBytes_length]
    calc decode (encode (.c2i cs) ++ t)
        = .cmd (.c2i (colorsOfBytes (cs.flatMap colorBytes))) t :=
          takePayload_append (k := fun p rest => .cmd (.c2i (colorsOfBytes p)) rest) length t
      _ = .cmd (.c2i cs) t := by rw [colorsOfBytes_flatMap_colorBytes]
  case batch xs ys ids =>
    obtain ⟨hx, hy, hi⟩ := wellFormed_batch_iff.mp wf
    have cut : decode (encode (.batch xs ys ids) ++ t) =
        takePayload (countByte xs).toNat (xs ++ ys ++ ids ++ t) fun xs u => takePayload (countByte ys).toNat u fun ys u =>
          takePayload (countByte ids).toNat u fun ids rest => .cmd (.batch xs ys ids) rest := rfl
    rw [cut, List.append_assoc, List.append_assoc, takePayload_append (countByte_toNat hx),
      takePayload_append (countByte_toNat hy), takePayload_append (countByte_toNat hi)]
  all_goals rfl

/-- An encoding is as long as the decoder's length function says (rule R62). -/
theorem cmdLen_encode_append {i : Instr} (wf : i.WellFormed) (t : List Byte) :
    cmdLen (encode i ++ t) = some (encode i).length := by
  cases i
  case packidx l | i2c l =>
    calc some (2 + (countByte l).toNat)
        = some (2 + l.length) := by rw [countByte_toNat wf]
      _ = some (l.length + 2) := by rw [Nat.add_comm]
  case c2i cs =>
    calc some (2 + 3 * (countByte cs).toNat)
        = some (2 + (cs.flatMap colorBytes).length) := by rw [countByte_toNat wf, flatMap_colorBytes_length]
      _ = some ((cs.flatMap colorBytes).length + 2) := by rw [Nat.add_comm]
  case batch xs ys ids =>
    obtain ⟨hx, hy, hi⟩ := wellFormed_batch_iff.mp wf
    calc some (4 + (countByte xs).toNat + (countByte ys).toNat + (countByte ids).toNat)
        = some (4 + xs.length + ys.length + ids.length) := by rw [countByte_toNat hx, countByte_toNat hy, countByte_toNat hi]
      _ = some ((xs ++ ys ++ ids).length + 4) := by simp only [List.length_append]; congr 1; omega
  all_goals rfl

/-! ## Every complete byte list starts with an encoding -/

theorem exists_cons_cons_of_le {t : List Byte} (h : 2 ≤ t.length) : ∃ a b u, t = a :: b :: u := by
  obtain ⟨a, t, rfl⟩ := List.exists_cons_of_length_pos (Nat.zero_lt_of_lt h)
  obtain ⟨b, u, rfl⟩ := List.exists_cons_of_length_pos (Nat.lt_of_succ_lt_succ h)
  exact ⟨a, b, u, rfl⟩

theorem exists_cons_cons_cons_of_le {t : List Byte} (h : 3 ≤ t.length) : ∃ a b c u, t = a :: b :: c :: u := by
  obtain ⟨a, t, rfl⟩ := List.exists_cons_of_length_pos (Nat.zero_lt_of_lt h)
  obtain ⟨b, c, u, rfl⟩ := exists_cons_cons_of_le (Nat.le_of_succ_le_succ h)
  exact ⟨a, b, c, u, rfl⟩

/-- A payload of the announced length can be cut off. -/
theorem exists_append_of_le {n : Nat} {t : List Byte} (h : n ≤ t.length) : ∃ p u, t = p ++ u ∧ p.length = n :=
  ⟨t.take n, t.drop n, (List.take_append_drop n t).symm, List.length_take_of_le h⟩

/-- A list that starts with the opcode of a command and is as long as its length function says starts with the encoding of a
well-formed command: its operands are cut off in the order of the format. -/
theorem exists_encode_append_of_complete {op : Byte} {o : Opcode} {t : List Byte} {n : Nat} (hop : Opcode.ofByte op = some o)
    (len : cmdLen (op :: t) = some n) (enough : n ≤ t.length + 1) :
    ∃ i rest, i.WellFormed ∧ op :: t = encode i ++ rest := by
  obtain rfl := Opcode.eq_byte_of_ofByte hop
  cases o <;> simp only [cmdLen, hop, Opcode.format, Option.some.injEq] at len
  case getraw => exact ⟨.getraw, t, rfl, rfl⟩
  case getidx => exact ⟨.getidx, t, rfl, rfl⟩
  case getcol => exact ⟨.getcol, t, rfl, rfl⟩
  case cfromidx =>
    obtain ⟨a, u, rfl⟩ := List.exists_cons_of_length_pos (l := t) (by omega)
    exact ⟨.cfromidx a, u, rfl, rfl⟩
  case unpackidx =>
    obtain ⟨a, u, rfl⟩ := List.exists_cons_of_length_pos (l := t) (by omega)
    exact ⟨.unpackidx a, u, rfl, rfl⟩
  case construct =>
    obtain ⟨a, u, rfl⟩ := List.exists_cons_of_length_pos (l := t) (by omega)
    exact ⟨.construct a, u, rfl, rfl⟩
  case freset =>
    obtain ⟨a, u, rfl⟩ := List.exists_cons_of_length_pos (l := t) (by omega)
    exact ⟨.freset a, u, rfl, rfl⟩
  case idxat =>
    obtain ⟨a, b, u, rfl⟩ := exists_cons_cons_of_le (t := t) (by omega)
    exact ⟨.idxat a b, u, rfl, rfl⟩
  case getpx =>
    obtain ⟨a, b, u, rfl⟩ := exists_cons_cons_of_le (t := t) (by omega)
    exact ⟨.getpx a b, u, rfl, rfl⟩
  case getpxc =>
    obtain ⟨a, b, u, rfl⟩ := exists_cons_cons_of_le (t := t) (by omega)
    exact ⟨.getpxc a b, u, rfl, rfl⟩
  case pack =>
    obtain ⟨a, b, c, u, rfl⟩ := exists_cons_cons_cons_of_le (t := t) (by omega)
    exact ⟨.pack a b c, u, rfl, rfl⟩
  case setidxat =>
    obtain ⟨a, b, c, u, rfl⟩ := exists_cons_cons_cons_of_le (t := t) (by omega)
    exact ⟨.setidxat a b c, u, rfl, rfl⟩
  case setpx =>
    obtain ⟨a, b, c, u, rfl⟩ := exists_cons_cons_cons_of_le (t := t) (by omega)
    exact ⟨.setpx a b c, u, rfl, rfl⟩
  case unpack =>
    obtain ⟨c2, c1, c0, u, rfl⟩ := exists_cons_cons_cons_of_le (t := t) (by omega)
    exact ⟨.unpack (colorOfBytes c2 c1 c0), u, rfl, by simp [encode, operandBytes, Instr.opcode]⟩
  case cidx =>
    obtain ⟨c2, c1, c0, u, rfl⟩ := exists_cons_cons_cons_of_le (t := t) (by omega)
    exact ⟨.cidx (colorOfBytes c2 c1 c0), u, rfl, by simp [encode, operandBytes, Instr.opcode]⟩
  case setpxc =>
    obtain ⟨x, y, t, rfl⟩ := exists_cons_cons_of_le (t := t) (by omega)
    obtain ⟨c2, c1, c0, u, rfl⟩ := exists_cons_cons_cons_of_le (t := t) (by simp only [List.length_cons] at enough; omega)
    exact ⟨.setpxc x y (colorOfBytes c2 c1 c0), u, rfl, by simp [encode, operandBytes, Instr.opcode]⟩
  case packidx =>
    split at len
    case h_2 => cases len
    case h_1 count u =>
      obtain ⟨p, rest, rfl, length⟩ := exists_append_of_le (n := count.toNat) (t := u) (by
        simp only [Option.some.injEq, List.length_cons] at len enough; omega)
      exact ⟨.packidx p, rest, fitsCount_of_length_eq length, by
        simp [encode, operandBytes, Instr.opcode, countByte_of_length_eq length]⟩
  case i2c =>
    split at len
    case h_2 => cases len
    case h_1 count u =>
      obtain ⟨p, rest, rfl, length⟩ := exists_append_of_le (n := count.toNat) (t := u) (by
        simp only [Option.some.injEq, List.length_cons] at len enough; omega)
      exact ⟨.i2c p, rest, fitsCount_of_length_eq length, by
        simp [encode, operandBytes, Instr.opcode, countByte_of_length_eq length]⟩
  case c2i =>
    split at len
    case h_2 => cases len
    case h_1 count u =>
      obtain ⟨p, rest, rfl, length⟩ := exists_append_of_le (n := 3 * count.toNat) (t := u) (by
        simp only [Option.some.injEq, List.length_cons] at len enough; omega)
      obtain ⟨cs, count_eq, rfl⟩ := exists_colors_of_length length
      exact ⟨.c2i cs, rest, fitsCount_of_length_eq count_eq, by
        simp [encode, operandBytes, Instr.opcode, countByte_of_length_eq count_eq]⟩
  case batch =>
    split at len
    case h_2 => cases len
    case h_1 lx ly li u =>
      simp only [Option.some.injEq, List.length_cons] at len enough
      obtain ⟨xs, u, rfl, hx⟩ := exists_append_of_le (n := lx.toNat) (t := u) (by omega)
      rw [List.length_append] at enough
      obtain ⟨ys, u, rfl, hy⟩ := exists_append_of_le (n := ly.toNat) (t := u) (by omega)
      rw [List.length_append] at enough
      obtain ⟨ids, rest, rfl, hi⟩ := exists_append_of_le (n := li.toNat) (t := u) (by omega)
      exact ⟨.batch xs ys ids, rest, wellFormed_batch_iff.mpr ⟨fitsCount_of_length_eq hx, fitsCount_of_length_eq hy,
        fitsCount_of_length_eq hi⟩, by
        simp [encode, operandBytes, Instr.opcode, countByte_of_length_eq hx, countByte_of_length_eq hy,
          countByte_of_length_eq hi]⟩

/-! ## The decoder is total -/

/-- All the decoder can answer: the bytes end inside a command, the first one is reserved, or the list is the encoding of a
well-formed command and a rest. -/
theorem decode_cases (s : List Byte) :
    ((cmdLen s = none ∨ ∃ n, cmdLen s = some n ∧ s.length < n) ∧ decode s = .needMore) ∨
    (∃ op rest, s = op :: rest ∧ Opcode.ofByte op = none ∧ decode s = .illegal op rest) ∨
    (∃ i rest, i.WellFormed ∧ s = encode i ++ rest ∧ decode s = .cmd i rest) := by
  by_cases incomplete : cmdLen s = none ∨ ∃ n, cmdLen s = some n ∧ s.length < n
  case pos => exact .inl ⟨incomplete, decode_eq_needMore_of_incomplete incomplete⟩
  simp only [not_or, not_exists, not_and, Nat.not_lt, ← Option.isSome_iff_ne_none, Option.isSome_iff_exists] at incomplete
  obtain ⟨⟨n, len⟩, enough⟩ := incomplete
  match s with
  | [] => cases len
  | op :: t =>
    cases hop : Opcode.ofByte op with
    | none => exact .inr (.inl ⟨op, t, rfl, hop, decode_of_reserved t hop⟩)
    | some o =>
      obtain ⟨i, rest, wf, bytes⟩ := exists_encode_append_of_complete hop len (enough n len)
      exact .inr (.inr ⟨i, rest, wf, bytes, bytes ▸ decode_encode_append wf rest⟩)

/-- A decoded command is well-formed, and its encoding stood before the rest. -/
theorem eq_encode_append_of_decode {s : List Byte} {i : Instr} {rest : List Byte} (h : decode s = .cmd i rest) :
    i.WellFormed ∧ s = encode i ++ rest := by
  obtain ⟨-, needMore⟩ | ⟨_, _, -, -, illegal⟩ | ⟨j, u, wf, bytes, cmd⟩ := decode_cases s
  · cases needMore.symm.trans h
  · cases illegal.symm.trans h
  · cases cmd.symm.trans h
    exact ⟨wf, bytes⟩

/-- Where the decoder asks for more, the bytes end inside a command. -/
theorem incomplete_of_decode_needMore {s : List Byte} (h : decode s = .needMore) :
    cmdLen s = none ∨ ∃ n, cmdLen s = some n ∧ s.length < n := by
  obtain ⟨incomplete, -⟩ | ⟨_, _, -, -, illegal⟩ | ⟨_, _, -, -, cmd⟩ := decode_cases s
  · exact incomplete
  · cases illegal.symm.trans h
  · cases cmd.symm.trans h

/-- Settles O1: the three answers of the decoder, of which the third is an encoding and its rest; two lists that decode to one
command with no rest are both its encoding. -/
theorem decodeIsTotalAndInvertsEncode : Obligations.DecodeIsTotalAndInvertsEncode := by
  unfold Obligations.DecodeIsTotalAndInvertsEncode
  refine ⟨fun s => (decode_cases s).imp_right (.imp_right ?command), fun i t wf => decode_encode_append wf t, ?injective⟩
  case command =>
    rintro ⟨i, rest, wf, rfl, cmd⟩
    refine ⟨i, (encode i).length, cmdLen_encode_append wf rest, by simp, wf, List.take_left, ?_, by rwa [List.drop_left]⟩
    cases i <;> rfl
  case injective =>
    intro s s' i h h'
    rw [(eq_encode_append_of_decode h).2, (eq_encode_append_of_decode h').2]

/-- Settles O5: the decoder evaluated on the five words. -/
theorem encodedWordsDecode : Obligations.EncodedWordsDecode := by
  unfold Obligations.EncodedWordsDecode
  decide

end Sys2Proof
end

