-- ==== Sys2Proof/Proofs/FrameChanges.lean ====
section
/-! The three ways a command changes the frame, one field, a fill or a construction, as values that can be listed and applied; and
what every list of them keeps: the streams, the invariant (10_state.md rule R28) and the padding fields. -/

namespace Sys2Proof.Machine

/-- One change of the frame: `CONSTRUCT`, the write of one pixel, or the fill of `FRESET`. -/
inductive FrameChange where
  | construct (size : Byte)
  | pixel (x y : Byte) (i : Index)
  | fill (f : Index)

/-- The change made, in terms of what `CONSTRUCT`, `PixWrite` and `FRESET` leave. -/
def FrameChange.apply : FrameChange → State → State
  | .construct size, s => s.constructed size
  | .pixel x y i, s => s.setPixel x y i
  | .fill f, s => s.filled f

/-- The state after these changes, in this order. -/
def State.changed : List FrameChange → State → State
  | [], s => s
  | c :: l, s => State.changed l (c.apply s)

/-! ## Which command may make which change -/

/-- The changes that the command `o` can make to a frame of side `n`. -/
inductive FrameChange.Allowed (n : Byte) : Opcode → FrameChange → Prop
  | construct (size : Byte) : Allowed n .construct (.construct size)
  | pixel {o : Opcode} {x y : Byte} (i : Index) (writes : o ∈ [Opcode.setpx, .setpxc, .batch])
      (hx : x.toNat < n.toNat) (hy : y.toNat < n.toNat) : Allowed n o (.pixel x y i)
  | fill (f : Index) : Allowed n .freset (.fill f)

/-- A change leaves the command's further changes allowed: only `CONSTRUCT` changes the size, and it is allowed at any size. -/
theorem FrameChange.Allowed.apply {o : Opcode} {s : State} {c d : FrameChange} (h : c.Allowed s.size o)
    (hd : d.Allowed s.size o) : d.Allowed (c.apply s).size o := by
  cases h with
  | construct size => cases hd with
    | construct size' => exact .construct size'
    | pixel i writes => simp at writes
  | pixel | fill => exact hd

/-- What each allowed change keeps, every list of them keeps. -/
theorem State.changed_induction {o : Opcode} {P : State → Prop}
    (keeps : ∀ s c, FrameChange.Allowed s.size o c → P s → P (c.apply s)) :
    ∀ {l : List FrameChange} {s : State}, (∀ c ∈ l, c.Allowed s.size o) → P s → P (s.changed l)
  | [], _, _, h => h
  | c :: l, s, allowed, h => by
    have hc : c.Allowed s.size o := allowed c (by simp)
    have later : ∀ d ∈ l, d.Allowed (c.apply s).size o := fun d hd => hc.apply (allowed d (List.mem_cons_of_mem _ hd))
    exact State.changed_induction (l := l) keeps later (keeps s c hc h)

/-- Only five commands have changes to make (10_state.md section 1). -/
theorem FrameChange.Allowed.opcode_mem {n : Byte} {o : Opcode} {c : FrameChange} (h : c.Allowed n o) :
    o ∈ [Opcode.construct, .setpx, .setpxc, .freset, .batch] := by
  cases h with
  | construct | fill => decide
  | pixel i writes => revert writes; revert o; decide

/-! ## What the changes keep -/

@[simp] theorem FrameChange.apply_cmd (c : FrameChange) (s : State) : (c.apply s).cmd = s.cmd := by cases c <;> rfl
@[simp] theorem FrameChange.apply_rsp (c : FrameChange) (s : State) : (c.apply s).rsp = s.rsp := by cases c <;> rfl
@[simp] theorem FrameChange.apply_evt (c : FrameChange) (s : State) : (c.apply s).evt = s.evt := by cases c <;> rfl

@[simp] theorem State.changed_cmd : ∀ (l : List FrameChange) (s : State), (s.changed l).cmd = s.cmd
  | [], _ => rfl
  | c :: l, s => (State.changed_cmd l (c.apply s)).trans (c.apply_cmd s)

@[simp] theorem State.changed_rsp : ∀ (l : List FrameChange) (s : State), (s.changed l).rsp = s.rsp
  | [], _ => rfl
  | c :: l, s => (State.changed_rsp l (c.apply s)).trans (c.apply_rsp s)

@[simp] theorem State.changed_evt : ∀ (l : List FrameChange) (s : State), (s.changed l).evt = s.evt
  | [], _ => rfl
  | c :: l, s => (State.changed_evt l (c.apply s)).trans (c.apply_evt s)

/-- Only `CONSTRUCT` changes `ACTIVE` or `SIZE`. -/
theorem State.changed_lifecycle {o : Opcode} {l : List FrameChange} {s : State} (allowed : ∀ c ∈ l, c.Allowed s.size o)
    (notConstruct : o ≠ .construct) : (s.changed l).active = s.active ∧ (s.changed l).size = s.size := by
  refine State.changed_induction (P := fun t => t.active = s.active ∧ t.size = s.size) (fun t c hc ht => ?_) allowed
    ⟨rfl, rfl⟩
  cases hc with
  | construct => exact absurd rfl notConstruct
  | pixel | fill => exact ht

/-! ## Two states with one frame -/

/-- The two states hold the same frame; their streams may differ. -/
def State.SameFrame (s s' : State) : Prop := s.active = s'.active ∧ s.size = s'.size ∧ s.buf = s'.buf

theorem FrameChange.apply_sameFrame (c : FrameChange) {s s' : State} (h : s.SameFrame s') :
    (c.apply s).SameFrame (c.apply s') := by
  obtain ⟨active, size, buf⟩ := h
  cases c <;> simp [State.SameFrame, FrameChange.apply, State.constructed, State.setPixel, State.filled, State.byteAt,
    active, size, buf]

/-- The changes depend on nothing but the frame. -/
theorem State.changed_sameFrame : ∀ (l : List FrameChange) {s s' : State}, s.SameFrame s' →
    (s.changed l).SameFrame (s'.changed l)
  | [], _, _, h => h
  | c :: l, _, _, h => State.changed_sameFrame l (c.apply_sameFrame h)

/-! ## The invariant (rule R28) -/

theorem Memory.fill_zero (v : Byte) : Memory.fill 0 v = [] := by unfold Memory.fill; split <;> rfl

theorem State.setPixel_inv {s : State} (inv : s.Inv) {x y : Byte} (i : Index) (hx : x.toNat < s.size.toNat)
    (hy : y.toNat < s.size.toNat) : (s.setPixel x y i).Inv := by
  obtain ⟨wf, inside, inactive⟩ := inv
  refine ⟨Memory.write_wf _ _ wf, fun c hc => ?_, fun h => ?_⟩
  · obtain here | before := Memory.mem_write hc
    · exact here ▸ pixelMap_lt_totalBytes hx hy
    · exact inside c before
  · have empty : s.size = 0 := (inactive h).1
    simp [empty] at hx

theorem State.filled_inv {s : State} (inv : s.Inv) (f : Index) : (s.filled f).Inv := by
  obtain ⟨-, -, inactive⟩ := inv
  refine ⟨Memory.fill_wf _ _, fun c => Memory.mem_fill, fun h => ⟨(inactive h).1, ?_⟩⟩
  have noBytes : (totalBytes s.size).toNat = 0 := by rw [(inactive h).1]; rfl
  rw [State.filled, noBytes, Memory.fill_zero]

theorem State.changed_inv {o : Opcode} {l : List FrameChange} {s : State} (allowed : ∀ c ∈ l, c.Allowed s.size o)
    (inv : s.Inv) : (s.changed l).Inv := by
  refine State.changed_induction (P := State.Inv) (fun t c hc ht => ?_) allowed inv
  cases hc with
  | construct size => exact t.constructed_inv size
  | pixel i _ hx hy => exact State.setPixel_inv ht i hx hy
  | fill f => exact State.filled_inv ht f

/-! ## The padding fields (rule R28) -/

/-- The field at position `p` of BUF, a pixel's or, from `TOTALPIXELS` on, a padding field. -/
def State.fieldAt (s : State) (p : Nat) : Index := indexAt (s.byteAt (p / 4)) (BitVec.ofNat 2 (p % 4))

/-- The write of a pixel passes through every field beyond the last pixel. -/
theorem State.fieldAt_setPixel_of_le {s : State} (wf : Memory.wf s.buf = true) {x y : Byte} (i : Index)
    (hx : x.toNat < s.size.toNat) (hy : y.toNat < s.size.toNat) {p : Nat} (hp : (totalPixels s.size).toNat ≤ p) :
    (s.setPixel x y i).fieldAt p = s.fieldAt p := by
  have before : y.toNat * s.size.toNat + x.toNat < p :=
    Nat.lt_of_lt_of_le (rowMajor_lt hx hy) (totalPixels_toNat s.size ▸ hp)
  rw [State.fieldAt, State.byteAt_setPixel x y i wf, pixelMap_byte_toNat hx hy]
  split
  case isFalse => rfl
  case isTrue sameByte =>
    refine indexAt_setIndexAt_of_ne _ _ (BitVec.toNat_ne.mpr ?_)
    rw [pixelMap_field_toNat hx hy, BitVec.toNat_ofNat]
    omega

theorem State.fieldAt_changed_of_le {o : Opcode} {l : List FrameChange} {s : State} (inv : s.Inv)
    (allowed : ∀ c ∈ l, c.Allowed s.size o) (notConstruct : o ≠ .construct) (notFreset : o ≠ .freset) {p : Nat}
    (hp : (totalPixels s.size).toNat ≤ p) : (s.changed l).fieldAt p = s.fieldAt p := by
  have kept : (s.changed l).Inv ∧ (s.changed l).size = s.size ∧ (s.changed l).fieldAt p = s.fieldAt p := by
    refine State.changed_induction (P := fun t => t.Inv ∧ t.size = s.size ∧ t.fieldAt p = s.fieldAt p)
      (fun t c hc ht => ?_) allowed ⟨inv, rfl, rfl⟩
    obtain ⟨inv', size, field⟩ := ht
    cases hc with
    | construct => exact absurd rfl notConstruct
    | fill => exact absurd rfl notFreset
    | pixel i _ hx hy =>
      exact ⟨State.setPixel_inv inv' i hx hy, size,
        (State.fieldAt_setPixel_of_le inv'.1 i hx hy (size ▸ hp)).trans field⟩
  exact kept.2.2

end Sys2Proof.Machine
end

