-- ==== Sys2Proof/Proofs/CommandEffects.lean ====
section
/-! What a command can do, said once for all twenty: `ACTIVE`, `SIZE` and the operands decide which changes it makes to the frame,
whether it fails and which event it emits; BUF decides the data of its response and nothing else (60_exceptions.md rules R161,
R171, R172). -/

namespace Sys2Proof.Machine

/-! ## Effects -/

/-- The effect of a command: it fails after these changes of the frame, or it makes these changes, emits this record and answers
data that BUF may decide. -/
inductive Effect where
  | fails (changes : List FrameChange) (e : CmdError)
  | answers (changes : List FrameChange) (event : Option Event) (data : List Host.Cell → List Byte)

namespace Effect

/-- The changes of the frame, made before the command fails or answers. -/
def changes : Effect → List FrameChange
  | .fails l _ => l
  | .answers l _ _ => l

/-- The record of an effect that answers; one that fails has none. -/
def event : Effect → Option Event
  | .fails _ _ => none
  | .answers _ e _ => e

/-- The response to a command that finds these cells in BUF. -/
def response (buf : List Host.Cell) : Effect → Response
  | .fails _ e => .error e
  | .answers _ _ data => .ok (data buf)

end Effect

/-- Emit the record, if there is one. -/
def State.emitIfAny (p : Params) (e : Option Event) (s : State) : State :=
  match e with
  | none => s
  | some e => s.emit p e

/-- The state that the effect leaves. -/
def Effect.run (p : Params) (E : Effect) (s : State) : State :=
  ((s.changed E.changes).emitIfAny p E.event).reply (E.response s.buf)

section EmitIfAny
variable (p : Params) (e : Option Event) (s : State)
@[simp] theorem State.emitIfAny_active : (s.emitIfAny p e).active = s.active := by cases e <;> simp [State.emitIfAny]
@[simp] theorem State.emitIfAny_size : (s.emitIfAny p e).size = s.size := by cases e <;> simp [State.emitIfAny]
@[simp] theorem State.emitIfAny_buf : (s.emitIfAny p e).buf = s.buf := by cases e <;> simp [State.emitIfAny]
@[simp] theorem State.emitIfAny_cmd : (s.emitIfAny p e).cmd = s.cmd := by cases e <;> simp [State.emitIfAny]
@[simp] theorem State.emitIfAny_rsp : (s.emitIfAny p e).rsp = s.rsp := by cases e <;> simp [State.emitIfAny]
@[simp] theorem State.emitIfAny_evt : (s.emitIfAny p e).evt = s.evt ++ if p.events then e.toList else [] := by
  cases e <;> simp [State.emitIfAny]
end EmitIfAny

section Run
variable (p : Params) (E : Effect) (s : State)
@[simp] theorem Effect.active_run : (E.run p s).active = (s.changed E.changes).active := by simp [Effect.run]
@[simp] theorem Effect.size_run : (E.run p s).size = (s.changed E.changes).size := by simp [Effect.run]
@[simp] theorem Effect.buf_run : (E.run p s).buf = (s.changed E.changes).buf := by simp [Effect.run]
@[simp] theorem Effect.cmd_run : (E.run p s).cmd = s.cmd := by simp [Effect.run]
@[simp] theorem Effect.rsp_run : (E.run p s).rsp = s.rsp ++ [E.response s.buf] := by simp [Effect.run]
@[simp] theorem Effect.evt_run : (E.run p s).evt = s.evt ++ if p.events then E.event.toList else [] := by simp [Effect.run]
end Run

/-- The effects the spec allows the command `i` on a frame of side `n`: an error the table gives it, changes its opcode can make,
none if it fails, unless it is a batch, and the event of its kind if it does not. -/
structure Effect.Fits (i : Instr) (n : Byte) (E : Effect) : Prop where
  changes_allowed : ∀ c ∈ E.changes, c.Allowed n i.opcode
  of_fails : ∀ {l e}, E = .fails l e → e ∈ errorsOf i.opcode ∧ (i.opcode ≠ .batch → l = [])
  of_answers : ∀ {l e d}, E = .answers l e d → e.toList = eventsOnOk i

section Fits
variable {i : Instr} {n : Byte}

theorem Effect.fits_fails {e : CmdError} (h : e ∈ errorsOf i.opcode) : (Effect.fails [] e).Fits i n :=
  ⟨nofun, fun | rfl => ⟨h, fun _ => rfl⟩, nofun⟩

theorem Effect.fits_answers {l : List FrameChange} {e : Option Event} (d : List Host.Cell → List Byte)
    (allowed : ∀ c ∈ l, c.Allowed n i.opcode) (event : e.toList = eventsOnOk i) : (Effect.answers l e d).Fits i n :=
  ⟨allowed, nofun, fun | rfl => event⟩

/-- A command that only reads. -/
theorem Effect.fits_reads (d : List Host.Cell → List Byte) (noEvent : eventsOnOk i = []) :
    (Effect.answers [] none d).Fits i n := Effect.fits_answers d nofun noEvent.symm

end Fits

/-! ## The pure commands -/

/-- A response a pure command may give: data, or an error the table gives the command. -/
def Response.Fits (o : Opcode) (r : Response) : Prop := (∃ d, r = .ok d) ∨ ∃ e ∈ errorsOf o, r = .error e

theorem answer_fits {o : Opcode} {x : Except CmdError (List Byte)} (h : ∀ e, x = .error e → e ∈ errorsOf o) :
    ∃ r : Response, r.Fits o ∧ ∀ s, answer x s = .next (s.reply r) := by
  cases x with
  | ok d => exact ⟨.ok d, .inl ⟨d, rfl⟩, fun _ => rfl⟩
  | error e => exact ⟨.error e, .inr ⟨e, h e rfl, rfl⟩, fun _ => rfl⟩

theorem eq_of_map_eq_error {α β : Type} {x : Except CmdError α} {f : α → β} {e : CmdError} (h : x.map f = .error e) :
    x = .error e := by
  cases x with
  | ok a => cases h
  | error e' => exact congrArg _ (Except.error.inj h)

theorem eq_of_colorIndex_eq_error {c : Color} {e : CmdError} (h : colorIndex c = .error e) : e = .colorNotInPalette := by
  unfold colorIndex at h
  split at h
  · cases h
  · exact (Except.error.inj h).symm

theorem eq_of_colorFromIndex_eq_error {idx : Byte} {e : CmdError} (h : colorFromIndex idx = .error e) :
    e = .indexOutOfRange := by
  unfold colorFromIndex at h
  split at h
  · exact (Except.error.inj h).symm
  · cases h

theorem mem_of_packIndices_eq_error {idxs : List Byte} {e : CmdError} (h : packIndices idxs = .error e) :
    e ∈ errorsOf .packidx := by
  unfold packIndices at h
  split at h
  · cases h; decide
  · split at h
    · cases h; decide
    · cases h

/-- The map raises the error of one of its elements. -/
theorem exists_of_mapUntilError_eq_error {α β : Type} {f : α → Except CmdError β} {e : CmdError} :
    ∀ {l : List α}, mapUntilError f l = .error e → ∃ a ∈ l, f a = .error e
  | a :: l, h => by
    unfold mapUntilError at h
    split at h
    · next e' ha => exact ⟨a, by simp, ha.trans (congrArg _ (Except.error.inj h))⟩
    · split at h
      · next e' hl =>
        obtain ⟨b, hb, hfb⟩ := exists_of_mapUntilError_eq_error (hl.trans (congrArg _ (Except.error.inj h)))
        exact ⟨b, List.mem_cons_of_mem _ hb, hfb⟩
      · cases h

/-- A pure command gives one response whatever the state, and changes nothing else. -/
theorem exec_pure {i : Instr} (pure : isPureCommand i.opcode = true) :
    ∃ r : Response, r.Fits i.opcode ∧ ∀ s, exec i s = .next (s.reply r) := by
  cases i
  case pack r g b => exact ⟨_, .inl ⟨_, rfl⟩, exec_pack r g b⟩
  case unpack c => exact ⟨_, .inl ⟨_, rfl⟩, exec_unpack c⟩
  case unpackidx byte => exact ⟨_, .inl ⟨_, rfl⟩, fun s => exec_unpackidx s byte⟩
  case cidx c =>
    exact answer_fits fun e h => by rw [eq_of_colorIndex_eq_error (eq_of_map_eq_error h)]; simp [errorsOf, Instr.opcode]
  case cfromidx idx =>
    exact answer_fits fun e h => by rw [eq_of_colorFromIndex_eq_error (eq_of_map_eq_error h)]; simp [errorsOf, Instr.opcode]
  case packidx idxs => exact answer_fits fun e h => mem_of_packIndices_eq_error (eq_of_map_eq_error h)
  case c2i cs =>
    refine answer_fits fun e h => ?_
    obtain ⟨c, -, hc⟩ := exists_of_mapUntilError_eq_error (eq_of_map_eq_error h)
    rw [eq_of_colorIndex_eq_error hc]; simp [errorsOf, Instr.opcode]
  case i2c idxs =>
    refine answer_fits fun e h => ?_
    obtain ⟨idx, -, hidx⟩ := exists_of_mapUntilError_eq_error (eq_of_map_eq_error h)
    rw [eq_of_colorFromIndex_eq_error hidx]; simp [errorsOf, Instr.opcode]
  case idxat byte pos =>
    obtain small | large := Nat.lt_or_ge pos.toNat 4
    · exact ⟨_, .inl ⟨_, rfl⟩, fun s => exec_idxat_of_lt s byte small⟩
    · exact ⟨_, .inr ⟨_, by simp [errorsOf, Instr.opcode], rfl⟩, fun s => exec_idxat_of_four_le s byte large⟩
  case setidxat byte pos idx =>
    obtain hpos | hpos := Nat.lt_or_ge pos.toNat 4
    · obtain hidx | hidx := Nat.lt_or_ge idx.toNat 4
      · exact ⟨_, .inl ⟨_, rfl⟩, fun s => exec_setidxat_of_lt s byte hpos hidx⟩
      · exact ⟨_, .inr ⟨_, by simp [errorsOf, Instr.opcode], rfl⟩, fun s =>
          exec_setidxat_of_four_le_index s byte hpos hidx⟩
    · exact ⟨_, .inr ⟨_, by simp [errorsOf, Instr.opcode], rfl⟩, fun s =>
        exec_setidxat_of_four_le_position s byte idx hpos⟩
  all_goals cases pure

/-- A pure command emits nothing. -/
theorem eventsOnOk_of_pure {i : Instr} (pure : isPureCommand i.opcode = true) : eventsOnOk i = [] := by
  cases i
  case setpx | setpxc | freset | batch => cases pure
  all_goals rfl

/-! ## The commands written over the parameters -/

/-- Whatever the parameters, `f` acts as the command `i` may: `ACTIVE`, `SIZE` and `P_BATCH_ATOMIC` decide the effect. -/
def ActsAs (i : Instr) (f : Params → State → Host.Outcome State Fault Refusal) : Prop :=
  ∀ (atomic active : Bool) (n : Byte), ∃ E : Effect, E.Fits i n ∧
    ∀ p s, p.batchAtomic = atomic → s.active = active → s.size = n → f p s = .next (E.run p s)

/-- Behind the check of `ACTIVE` only active frames are left to look at. -/
theorem actsAs_of_requireActive {i : Instr} {k : Params → State → Host.Outcome State Fault Refusal}
    (notActive : CmdError.notActive ∈ errorsOf i.opcode)
    (acts : ∀ (atomic : Bool) (n : Byte), ∃ E : Effect, E.Fits i n ∧
      ∀ p s, p.batchAtomic = atomic → s.active = true → s.size = n → k p s = .next (E.run p s)) :
    ActsAs i fun p s => requireActive s (k p s) := by
  intro atomic active n
  cases active with
  | false => exact ⟨_, Effect.fits_fails notActive, fun p s _ inactive _ => requireActive_of_inactive inactive⟩
  | true =>
    obtain ⟨E, fits, run⟩ := acts atomic n
    exact ⟨E, fits, fun p s ha active hn => (requireActive_of_active active).trans (run p s ha active hn)⟩

theorem mem_of_pixelWriteError_eq_some {n x y idx : Byte} {e : CmdError} (h : pixelWriteError n x y idx = some e) :
    e ∈ [CmdError.coordinatesOutOfBounds, CmdError.indexOutOfRange] := by
  unfold pixelWriteError at h
  split at h
  · cases h; decide
  · split at h
    · cases h; decide
    · cases h

/-- The write shared by `SETPX` and `SETPXC`. -/
theorem Effect.fits_writePixel {i : Instr} {n x y : Byte} (j : Index) (bounds : inBounds n x y = true)
    (writes : i.opcode ∈ [Opcode.setpx, .setpxc, .batch]) (event : eventsOnOk i = [.pixelChanged x y (indexByte j)]) :
    (Effect.answers [.pixel x y j] (some (.pixelChanged x y (indexByte j))) fun _ => []).Fits i n := by
  obtain ⟨hx, hy⟩ := inBounds_iff.mp bounds
  refine Effect.fits_answers _ (fun c hc => ?_) event.symm
  rw [List.mem_singleton.mp hc]
  exact .pixel j writes hx hy

theorem setpxWith_actsAs (x y idx : Byte) : ActsAs (.setpx x y idx) fun p => setpxWith p x y idx := by
  refine actsAs_of_requireActive (by simp [errorsOf, Instr.opcode]) fun _ n => ?_
  cases checked : pixelWriteError n x y idx with
  | some e =>
    have raised : e ∈ errorsOf .setpx :=
      List.mem_append_left [CmdError.notActive] (mem_of_pixelWriteError_eq_some checked)
    refine ⟨_, Effect.fits_fails raised, fun p s _ _ hn => ?_⟩
    subst hn
    rw [checked]; rfl
  | none =>
    obtain ⟨bounds, small⟩ := pixelWriteError_eq_none_iff.mp checked
    have event : eventsOnOk (.setpx x y idx) = [.pixelChanged x y (indexByte (low2 idx))] := by
      rw [indexByte_low2 small]; rfl
    refine ⟨_, Effect.fits_writePixel (low2 idx) bounds (by simp [Instr.opcode]) event, fun p s _ _ hn => ?_⟩
    subst hn
    obtain ⟨hx, hy⟩ := inBounds_iff.mp bounds
    rw [checked]
    exact writePixel_of_inBounds hx hy p (low2 idx)

theorem setpxcWith_actsAs (x y : Byte) (c : Color) : ActsAs (.setpxc x y c) fun p => setpxcWith p x y c := by
  refine actsAs_of_requireActive (by simp [errorsOf, Instr.opcode]) fun _ n => ?_
  cases found : colorIndex c with
  | error e =>
    obtain rfl := eq_of_colorIndex_eq_error found
    exact ⟨_, Effect.fits_fails (by simp [errorsOf, Instr.opcode]), fun _ _ _ _ _ => rfl⟩
  | ok j =>
    cases bounds : inBounds n x y with
    | false =>
      refine ⟨_, Effect.fits_fails (e := .coordinatesOutOfBounds) (by simp [errorsOf, Instr.opcode]), fun p s _ _ hn => ?_⟩
      subst hn
      simp only [bounds]; rfl
    | true =>
      refine ⟨_, Effect.fits_writePixel j bounds (by simp [Instr.opcode]) (by rw [eventsOnOk, found]), fun p s _ _ hn => ?_⟩
      subst hn
      obtain ⟨hx, hy⟩ := inBounds_iff.mp bounds
      simp only [bounds]
      exact writePixel_of_inBounds hx hy p j

theorem fresetWith_actsAs (fill : Byte) : ActsAs (.freset fill) fun p => fresetWith p fill := by
  refine actsAs_of_requireActive (by simp [errorsOf, Instr.opcode]) fun _ n => ?_
  cases large : atLeast4 fill with
  | true => exact ⟨_, Effect.fits_fails (e := .indexOutOfRange) (by simp [errorsOf, Instr.opcode]), fun _ _ _ _ _ => rfl⟩
  | false =>
    refine ⟨.answers [.fill (low2 fill)] (some .frameReset) fun _ => [], Effect.fits_answers _ (fun c hc => ?_) rfl,
      fun _ _ _ _ _ => rfl⟩
    rw [List.mem_singleton.mp hc]
    exact .fill (low2 fill)

/-! ## The loop of a batch -/

/-- The elements before the first failing one. -/
def goodElements (n : Byte) (l : List Triple) : List Triple :=
  l.takeWhile fun e => (pixelWriteError n e.1 e.2.1 e.2.2).isNone

/-- The write of one element. -/
def elementChange (e : Triple) : FrameChange := .pixel e.1 e.2.1 (low2 e.2.2)

theorem goodElements_cons_of_error {n x y idx : Byte} {e : CmdError} (h : pixelWriteError n x y idx = some e) (l : List Triple) :
    goodElements n ((x, y, idx) :: l) = [] := by simp [goodElements, h]

theorem goodElements_cons_of_none {n x y idx : Byte} (h : pixelWriteError n x y idx = none) (l : List Triple) :
    goodElements n ((x, y, idx) :: l) = (x, y, idx) :: goodElements n l := by simp [goodElements, h]

/-- The loop writes the elements before the first failing one, and its error is that of the checks alone. -/
theorem batchLoop_eq_changed : ∀ (l : List Triple) (s : State), batchLoop l s =
    .ok (s.changed ((goodElements s.size l).map elementChange), batchCheck s.size l)
  | [], _ => rfl
  | (x, y, idx) :: l, s => by
    cases checked : pixelWriteError s.size x y idx with
    | some e =>
      rw [batchLoop_cons_error checked, goodElements_cons_of_error checked, batchCheck, List.findSome?_cons, checked]; rfl
    | none =>
      obtain ⟨bounds, -⟩ := pixelWriteError_eq_none_iff.mp checked
      obtain ⟨hx, hy⟩ := inBounds_iff.mp bounds
      rw [goodElements_cons_of_none checked, batchCheck, List.findSome?_cons, checked]
      simp only [batchLoop, checked, pixWrite_pixelMap (low2 idx) hx hy, batchLoop_eq_changed l]; rfl

theorem mem_of_batchCheck_eq_some {n : Byte} {l : List Triple} {e : CmdError} (h : batchCheck n l = some e) :
    e ∈ errorsOf .batch := by
  obtain ⟨_, -, raised⟩ := List.exists_of_findSome?_eq_some h
  exact List.mem_append_left [.arrayLengthMismatch, .notActive] (mem_of_pixelWriteError_eq_some raised)

theorem allowed_of_mem_goodElements {n : Byte} {l : List Triple} {c : FrameChange}
    (h : c ∈ (goodElements n l).map elementChange) : c.Allowed n .batch := by
  obtain ⟨e, he, rfl⟩ := List.mem_map.mp h
  have checked : (pixelWriteError n e.1 e.2.1 e.2.2).isNone = true :=
    List.mem_takeWhile_imp (p := fun e : Triple => (pixelWriteError n e.1 e.2.1 e.2.2).isNone) he
  obtain ⟨bounds, -⟩ := pixelWriteError_eq_none_iff.mp (Option.isNone_iff_eq_none.mp checked)
  obtain ⟨hx, hy⟩ := inBounds_iff.mp bounds
  exact .pixel _ (by decide) hx hy

theorem batchWith_actsAs (xs ys ids : List Byte) : ActsAs (.batch xs ys ids) fun p => batchWith p xs ys ids := by
  intro atomic active n
  cases active with
  | false =>
    exact ⟨_, Effect.fits_fails (by simp [errorsOf, Instr.opcode]), fun p s _ inactive _ =>
      requireActive_of_inactive inactive⟩
  | true =>
    cases lengths : sameLengths xs ys ids with
    | false =>
      exact ⟨_, Effect.fits_fails (by simp [errorsOf, Instr.opcode]), fun p s _ active _ =>
        batchWith_of_lengths_differ active p lengths⟩
    | true =>
      cases checked : batchCheck n (triples xs ys ids) with
      | some e =>
        refine ⟨.fails (if atomic then [] else (goodElements n (triples xs ys ids)).map elementChange) e,
          ⟨fun c hc => ?_, fun | rfl => ⟨mem_of_batchCheck_eq_some checked, fun h => absurd rfl h⟩, nofun⟩,
          fun p s ha active hn => ?_⟩
        · cases atomic
          · exact allowed_of_mem_goodElements hc
          · cases hc
        · subst ha hn
          refine (batchWith_of_check_error active p lengths (batchLoop_eq_changed _ _) checked).trans ?_
          cases p.batchAtomic <;> rfl
      | none =>
        refine ⟨.answers ((goodElements n (triples xs ys ids)).map elementChange) (some (.batchSet (countByte xs))) fun _ => [],
          Effect.fits_answers _ (fun c => allowed_of_mem_goodElements) rfl, fun p s _ active hn => ?_⟩
        subst hn
        exact batchWith_of_check_none active p lengths (batchLoop_eq_changed _ _) checked

/-! ## The commands that read the frame -/

/-- The frame of side `n` with these cells, nothing on its streams. -/
def State.ofFrame (n : Byte) (buf : List Host.Cell) : State := { State.reset with size := n, buf := buf }

/-- `GETPX` and `GETPXC`. -/
theorem readPixel_actsAs {i : Instr} (x y : Byte) (k : Index → List Byte)
    (errors : errorsOf i.opcode = [.coordinatesOutOfBounds, .notActive]) (noEvent : eventsOnOk i = []) :
    ActsAs i fun _ s => readPixel x y s k := by
  refine actsAs_of_requireActive (by simp [errors]) fun _ n => ?_
  cases bounds : inBounds n x y with
  | false =>
    refine ⟨_, Effect.fits_fails (e := .coordinatesOutOfBounds) (by simp [errors]), fun _ s _ _ hn => ?_⟩
    subst hn
    simp only [bounds]; rfl
  | true =>
    refine ⟨_, Effect.fits_reads (fun buf => k ((State.ofFrame n buf).pixelAt x y)) noEvent, fun _ s _ _ hn => ?_⟩
    subst hn
    obtain ⟨hx, hy⟩ := inBounds_iff.mp bounds
    simp only [bounds, pixRead_pixelMap hx hy]; rfl

/-- `GETRAW`, `GETIDX` and `GETCOL`: `data` gives the answer from `SIZE` and BUF. -/
theorem readAll_actsAs {i : Instr} (data : Byte → List Host.Cell → List Byte) (errors : errorsOf i.opcode = [.notActive])
    (noEvent : eventsOnOk i = []) : ActsAs i fun _ s => requireActive s (respond (data s.size s.buf) s) := by
  refine actsAs_of_requireActive (by simp [errors]) fun _ n => ⟨_, Effect.fits_reads (data n) noEvent, fun _ s _ _ hn => ?_⟩
  rw [hn]; rfl

/-! ## All commands -/

theorem ActsAs.exec {i : Instr} {f : Params → State → Host.Outcome State Fault Refusal} (acts : ActsAs i f)
    (h : exec i = f Config.params) (active : Bool) (n : Byte) : ∃ E : Effect, E.Fits i n ∧
      ∀ s, s.active = active → s.size = n → exec i s = .next (E.run Config.params s) := by
  obtain ⟨E, fits, run⟩ := acts false active n
  exact ⟨E, fits, fun s ha hn => h ▸ run Config.params s rfl ha hn⟩

/-- Every command has one effect for given `ACTIVE` and `SIZE`. -/
theorem exec_effect (i : Instr) (active : Bool) (n : Byte) : ∃ E : Effect, E.Fits i n ∧
    ∀ s, s.active = active → s.size = n → exec i s = .next (E.run Config.params s) := by
  by_cases pure : isPureCommand i.opcode = true
  case pos =>
    obtain ⟨r, ⟨d, rfl⟩ | ⟨e, allowed, rfl⟩, answered⟩ := exec_pure pure
    · exact ⟨_, Effect.fits_reads (fun _ => d) (eventsOnOk_of_pure pure), fun s _ _ => answered s⟩
    · exact ⟨_, Effect.fits_fails allowed, fun s _ _ => answered s⟩
  cases i
  case construct size =>
    refine ⟨.answers [.construct size] none fun _ => [], Effect.fits_answers _ (fun c hc => ?_) rfl, fun _ _ _ => rfl⟩
    rw [List.mem_singleton.mp hc]
    exact .construct size
  case setpx x y idx => exact (setpxWith_actsAs x y idx).exec rfl active n
  case getpx x y => exact (readPixel_actsAs x y _ rfl rfl).exec rfl active n
  case setpxc x y c => exact (setpxcWith_actsAs x y c).exec rfl active n
  case getpxc x y => exact (readPixel_actsAs x y _ rfl rfl).exec rfl active n
  case getraw =>
    exact (readAll_actsAs (fun n buf => bufBytes (.ofFrame n buf)) rfl rfl).exec rfl active n
  case getidx =>
    exact (readAll_actsAs (fun n buf => (allIndices (.ofFrame n buf)).map indexByte) rfl rfl).exec rfl active n
  case getcol =>
    exact (readAll_actsAs (fun n buf => (allIndices (.ofFrame n buf)).flatMap fun j => colorBytes (PAL j)) rfl rfl).exec
      rfl active n
  case freset fill => exact (fresetWith_actsAs fill).exec rfl active n
  case batch xs ys ids => exact (batchWith_actsAs xs ys ids).exec rfl active n
  all_goals exact absurd rfl pure

/-- The effect of a command in a given state. -/
theorem exec_eq_run (i : Instr) (s : State) : ∃ E : Effect, E.Fits i s.size ∧ exec i s = .next (E.run Config.params s) := by
  obtain ⟨E, fits, run⟩ := exec_effect i s.active s.size
  exact ⟨E, fits, run s rfl rfl⟩

end Sys2Proof.Machine
end

