-- ==== Sys2Proof/Proofs/EveryCommand.lean ====
section
/-! What holds of every command in every state, read off its effect: one response, the errors and events of its kind, and what
the command leaves unchanged (10_state.md rules R28, R33, 60_exceptions.md rules R160, R171, R172, R176). -/

namespace Sys2Proof.Machine

/-- On this hardware the event of an effect is emitted. -/
theorem Effect.evt_run_config (E : Effect) (s : State) : (E.run Config.params s).evt = s.evt ++ E.event.toList :=
  E.evt_run Config.params s

/-! ## One response -/

/-- Settles O14: the effect ends in a next state with the one response added. -/
theorem everyCommandAnswersExactlyOnce : Obligations.EveryCommandAnswersExactlyOnce := by
  unfold Obligations.EveryCommandAnswersExactlyOnce
  intro i s
  obtain ⟨E, -, run⟩ := exec_eq_run i s
  exact ⟨_, _, run, E.rsp_run _ s, E.cmd_run _ s⟩

/-- Settles O15: states with one frame meet one effect, whose changes, response and event depend on the frame alone. -/
theorem behaviourDependsOnlyOnTheFrame : Obligations.BehaviourDependsOnlyOnTheFrame := by
  unfold Obligations.BehaviourDependsOnlyOnTheFrame
  intro i s s' active size buf
  obtain ⟨E, -, run⟩ := exec_effect i s.active s.size
  obtain ⟨active', size', buf'⟩ := State.changed_sameFrame E.changes ⟨active, size, buf⟩
  refine ⟨_, _, E.response s.buf, E.event.toList, run s rfl rfl, run s' active.symm size.symm, ?frame⟩
  case frame => simp [active', size', buf', ← buf, Config.params]

/-- Whether an effect fails does not depend on BUF. -/
theorem Effect.response_status (E : Effect) (buf buf' : List Host.Cell) :
    (E.response buf).status = (E.response buf').status := by
  cases E <;> rfl

/-- Settles O16: states with one `ACTIVE` and one `SIZE` meet one effect, and BUF has no part in its status. -/
theorem statusDoesNotDependOnBuf : Obligations.StatusDoesNotDependOnBuf := by
  unfold Obligations.StatusDoesNotDependOnBuf
  intro i s s' active size
  obtain ⟨E, -, run⟩ := exec_effect i s.active s.size
  exact ⟨_, _, _, _, run s rfl rfl, run s' active.symm size.symm, E.rsp_run _ s, E.rsp_run _ s', E.response_status _ _⟩

/-! ## What commands leave unchanged -/

/-- Settles O17: of the changes only a construction touches `ACTIVE` or `SIZE`. -/
theorem lifecycleTransitions : Obligations.LifecycleTransitions := by
  unfold Obligations.LifecycleTransitions
  intro i s
  by_cases construct : i.opcode = .construct
  case pos =>
    cases i <;> cases construct
    exact ⟨_, exec_construct _ s, fun _ => rfl, fun h => absurd rfl h⟩
  case neg =>
    obtain ⟨E, fits, run⟩ := exec_eq_run i s
    refine ⟨_, run, fun h => absurd h construct, fun _ => ?_⟩
    simpa using State.changed_lifecycle fits.changes_allowed construct

theorem eventsOnOk_of_not_mem {i : Instr} (h : i.opcode ∉ [Opcode.construct, .setpx, .setpxc, .freset, .batch]) :
    eventsOnOk i = [] := by
  cases i
  case setpx | setpxc | freset | batch => simp [Instr.opcode] at h
  all_goals rfl

/-- Settles O19: the opcode allows no change of the frame, and the command has no event. -/
theorem onlyFiveCommandsWriteTheFrame : Obligations.OnlyFiveCommandsWriteTheFrame := by
  unfold Obligations.OnlyFiveCommandsWriteTheFrame
  intro i s reads
  obtain ⟨E, fits, run⟩ := exec_eq_run i s
  have noChange : E.changes = [] :=
    List.eq_nil_iff_forall_not_mem.mpr fun c hc => reads (fits.changes_allowed c hc).opcode_mem
  have noEvent : E.event = none := by
    cases E with
    | fails => rfl
    | answers l e d => exact Option.toList_eq_nil_iff.mp ((fits.of_answers rfl).trans (eventsOnOk_of_not_mem reads))
  refine ⟨E.response s.buf, run.trans ?_⟩
  rw [Effect.run, noChange, noEvent]; rfl

/-- Settles O20: the response is chosen before the state. -/
theorem pureCommandsIgnoreTheState : Obligations.PureCommandsIgnoreTheState := by
  unfold Obligations.PureCommandsIgnoreTheState
  intro i pure
  obtain ⟨r, -, answered⟩ := exec_pure pure
  exact ⟨r, answered⟩

/-- Settles O58: all other changes are writes of single pixels, which pass through the fields beyond the last pixel. -/
theorem paddingFieldsChangeOnlyByConstructAndFreset : Obligations.PaddingFieldsChangeOnlyByConstructAndFreset := by
  unfold Obligations.PaddingFieldsChangeOnlyByConstructAndFreset
  intro i s t inv h notConstruct notFreset p hp
  obtain ⟨E, fits, run⟩ := exec_eq_run i s
  cases run.symm.trans h
  have kept := State.fieldAt_changed_of_le inv fits.changes_allowed notConstruct notFreset hp
  simpa only [State.fieldAt, State.byteAt, Effect.buf_run] using kept

/-! ## Errors and events -/

/-- Settles O21: an effect that fails has an error from the table. -/
theorem statusCodesAndWhoRaisesThem : Obligations.StatusCodesAndWhoRaisesThem := by
  unfold Obligations.StatusCodesAndWhoRaisesThem
  refine ⟨fun _ => ⟨rfl, rfl⟩, fun _ => ⟨rfl, rfl⟩, ⟨rfl, rfl, rfl, rfl, rfl, rfl, rfl, rfl⟩, fun i s => ?errors⟩
  case errors =>
    obtain ⟨E, fits, run⟩ := exec_eq_run i s
    refine ⟨_, _, run, E.rsp_run _ s, ?_⟩
    cases E with
    | fails l e => exact .inr ⟨e, (fits.of_fails rfl).1, rfl⟩
    | answers l e d => exact .inl ⟨_, rfl⟩

/-- Settles O22: an effect that fails emits nothing and, but for a batch, has made no change. -/
theorem errorEntryChangesNothingElse : Obligations.ErrorEntryChangesNothingElse := by
  unfold Obligations.ErrorEntryChangesNothingElse
  intro i s t e h failed
  obtain ⟨E, fits, run⟩ := exec_eq_run i s
  cases run.symm.trans h
  rw [E.rsp_run, List.append_cancel_left_eq, List.singleton_inj] at failed
  cases E with
  | answers l e' d => cases failed
  | fails l e' =>
    obtain ⟨raised, unchanged⟩ := fits.of_fails rfl
    have notConstruct : i.opcode ≠ .construct := fun h => by simp [h, errorsOf] at raised
    obtain ⟨active, size⟩ := State.changed_lifecycle fits.changes_allowed notConstruct
    refine ⟨rfl, (Effect.active_run ..).trans active, (Effect.size_run ..).trans size, Effect.cmd_run .., ?_,
      fun notBatch => ?_⟩
    · exact (Effect.evt_run_config _ s).trans (List.append_nil _)
    · rw [unchanged notBatch]; rfl

/-- Settles O23: an effect that answers has the event of its command, one that fails none. -/
theorem eventsOfEveryCommand : Obligations.EventsOfEveryCommand := by
  unfold Obligations.EventsOfEveryCommand
  refine ⟨fun _ _ _ _ => ⟨rfl, rfl, rfl⟩, fun i s => ?emitted⟩
  case emitted =>
    obtain ⟨E, fits, run⟩ := exec_eq_run i s
    refine ⟨_, _, run, E.rsp_run _ s, ?_⟩
    rw [Effect.evt_run_config]
    cases E with
    | fails l e => exact ⟨nofun, fun _ _ => List.append_nil _⟩
    | answers l e d => exact ⟨fun _ _ => congrArg _ (fits.of_answers rfl), nofun⟩

/-! ## The parameter `P_EVENTS` -/

/-- Without events the effect is the same but for its event. -/
theorem Effect.run_without_events (p : Params) (E : Effect) (s : State) :
    E.run { p with events := false } s = { E.run { p with events := true } s with evt := s.evt } := by
  cases E with
  | fails l e => simp [Effect.run, State.reply, Effect.event, State.emitIfAny]
  | answers l e d => cases e <;> simp [Effect.run, State.reply, Effect.event, State.emitIfAny, State.emit]

theorem ActsAs.without_events {i : Instr} {f : Params → State → Host.Outcome State Fault Refusal} (acts : ActsAs i f)
    (p : Params) (s : State) : ∃ t, f { p with events := true } s = .next t ∧
      f { p with events := false } s = .next { t with evt := s.evt } := by
  obtain ⟨E, -, run⟩ := acts p.batchAtomic s.active s.size
  exact ⟨_, run { p with events := true } s rfl rfl rfl,
    (run { p with events := false } s rfl rfl rfl).trans (congrArg _ (E.run_without_events p s))⟩

/-- Settles O24: the parameter has a part in nothing but the emission of an effect's event. -/
theorem eventsParameterChangesOnlyEvents : Obligations.EventsParameterChangesOnlyEvents := by
  unfold Obligations.EventsParameterChangesOnlyEvents
  rintro p s f (⟨x, y, idx, rfl⟩ | ⟨x, y, c, rfl⟩ | ⟨fill, rfl⟩ | ⟨xs, ys, ids, rfl⟩)
  · exact (setpxWith_actsAs x y idx).without_events p s
  · exact (setpxcWith_actsAs x y c).without_events p s
  · exact (fresetWith_actsAs fill).without_events p s
  · exact (batchWith_actsAs xs ys ids).without_events p s

end Sys2Proof.Machine
end

