-- ==== Sys2Proof/Proofs/EveryStep.lean ====
section
/-! The step of the whole block: what it takes from CMD in each case, that it never stops, and what it keeps (20_memory.md rule
R50, 30_encoding.md rules R62, R68, 10_state.md rules R22, R23, R28, 70_reset_and_hazards.md rule R197). -/

namespace Sys2Proof.Machine

/-! ## What the block fetches -/

/-- A command is fetched when its encoding stands at the head of CMD. -/
theorem fetch_encode_append {i : Instr} (wf : i.WellFormed) (t : List HostAction) :
    fetch ((encode i).map .send ++ t) = .run i t := by
  simp only [fetch, bytesBeforeRst_send_append, decode_encode_append wf, fromRst_send_append, bytesBeforeRst_append_fromRst]

/-- Without a command on CMD the block waits or takes an RST. -/
theorem fetchRst_cases : ∀ q : List HostAction, fetchRst q = .wait ∨ ∃ t, q = .rst :: t ∧ fetchRst q = .rst t
  | [] | .send _ :: _ => .inl rfl
  | .rst :: t => .inr ⟨t, rfl, rfl⟩

/-- A fetched command is well-formed, and its encoding stood at the head of CMD. -/
theorem eq_encode_append_of_fetch {q t : List HostAction} {i : Instr} (h : fetch q = .run i t) :
    i.WellFormed ∧ q = (encode i).map .send ++ t := by
  unfold fetch at h
  split at h
  case h_1 j rest decoded =>
    cases h
    obtain ⟨wf, bytes⟩ := eq_encode_append_of_decode decoded
    refine ⟨wf, ?_⟩
    rw [← List.append_assoc, ← List.map_append, ← bytes, bytesBeforeRst_append_fromRst]
  case h_2 => cases h
  case h_3 =>
    obtain wait | ⟨u, -, rst⟩ := fetchRst_cases (fromRst q)
    · cases wait.symm.trans h
    · cases rst.symm.trans h

/-- A reserved opcode that is fetched stood at the head of CMD. -/
theorem eq_cons_of_fetch_illegal {q t : List HostAction} (h : fetch q = .illegal t) : ∃ b, q = .send b :: t := by
  unfold fetch at h
  split at h
  case h_1 => cases h
  case h_2 op rest decoded =>
    cases h
    obtain ⟨bytes, -⟩ := reserved_of_decode_illegal decoded
    refine ⟨op, ?_⟩
    rw [← List.cons_append, ← List.map_cons, ← bytes, bytesBeforeRst_append_fromRst]
  case h_3 =>
    obtain wait | ⟨u, -, rst⟩ := fetchRst_cases (fromRst q)
    · cases wait.symm.trans h
    · cases rst.symm.trans h

/-- Before an RST that is fetched stand bytes that end inside a command. -/
theorem eq_append_of_fetch_rst {q t : List HostAction} (h : fetch q = .rst t) : ∃ bs : List Byte,
    q = bs.map .send ++ .rst :: t ∧ (cmdLen bs = none ∨ ∃ n, cmdLen bs = some n ∧ bs.length < n) := by
  unfold fetch at h
  split at h
  case h_1 | h_2 => cases h
  case h_3 decoded =>
    obtain wait | ⟨u, behind, rst⟩ := fetchRst_cases (fromRst q)
    · cases wait.symm.trans h
    · cases rst.symm.trans h
      exact ⟨bytesBeforeRst q, by rw [← behind, bytesBeforeRst_append_fromRst], incomplete_of_decode_needMore decoded⟩

/-! ## The step that runs a command, and the step that waits -/

theorem step_of_encode {i : Instr} {s : State} {t : List HostAction} (wf : i.WellFormed)
    (h : s.cmd = (encode i).map .send ++ t) : step s = exec i { s with cmd := t } := by
  rw [step, h, fetch_encode_append wf]

/-- Settles O7: the decoder finds the command whose encoding stands at the head of CMD. -/
theorem stepRunsTheDecodedCommand : Obligations.StepRunsTheDecodedCommand := by
  unfold Obligations.StepRunsTheDecodedCommand
  exact fun _ _ _ => step_of_encode

/-- Settles O8: the decoder asks for more, and no RST stands behind the bytes. -/
theorem incompleteCommandWaits : Obligations.IncompleteCommandWaits := by
  unfold Obligations.IncompleteCommandWaits
  intro s bs h incomplete
  have before : bytesBeforeRst (bs.map .send) = bs := by
    simpa [bytesBeforeRst] using bytesBeforeRst_send_append bs []
  have behind : fromRst (bs.map .send) = [] := by
    simpa [fromRst] using fromRst_send_append bs []
  simp only [step, h, fetch, before, decode_eq_needMore_of_incomplete incomplete, behind, fetchRst]

/-- Settles O2: the length is that of the operand bytes, the decoder reads it back, and the step that runs the command leaves what
stood behind its bytes. -/
theorem commandLengthAndConsumption : Obligations.CommandLengthAndConsumption := by
  unfold Obligations.CommandLengthAndConsumption
  refine fun i wf => ⟨?length, ?longest, cmdLen_encode_append wf, ?consumed⟩
  case length =>
    cases i <;> simp [encode, operandBytes, colorBytes]
    all_goals omega
  case longest =>
    cases i
    case packidx l | i2c l =>
      have := fitsCount_iff.mp wf
      simp [encode, operandBytes]; omega
    case c2i l =>
      have := fitsCount_iff.mp wf
      simp only [encode, operandBytes, List.length_cons, flatMap_colorBytes_length]; omega
    case batch xs ys ids =>
      obtain ⟨hx, hy, hi⟩ := wellFormed_batch_iff.mp wf
      rw [fitsCount_iff] at hx hy hi
      simp [encode, operandBytes]; omega
    all_goals simp [encode, operandBytes, colorBytes]
  case consumed =>
    intro s t h
    obtain ⟨E, -, run⟩ := exec_eq_run i { s with cmd := t }
    exact ⟨_, (step_of_encode wf h).trans run, E.cmd_run _ _⟩

/-! ## What every step keeps -/

/-- Settles O13: each of the four kinds of step ends in a next state, with what it consumed taken off the front of CMD. -/
theorem everyStateSteps : Obligations.EveryStateSteps := by
  unfold Obligations.EveryStateSteps
  intro s
  obtain ⟨-, wait⟩ | ⟨q, fetched, rst⟩ | ⟨q, fetched, illegal⟩ | ⟨i, q, fetched, command⟩ := step_cases s
  · exact ⟨s, [], [], wait, by simp, by simp, by simp, by simp, List.suffix_rfl⟩
  · obtain ⟨bs, hq, -⟩ := eq_append_of_fetch_rst fetched
    refine ⟨_, [], [], rst, by simp, by simp, by simp, by simp, bs.map .send ++ [.rst], ?_⟩
    rw [hq, List.append_assoc, List.singleton_append]
  · obtain ⟨b, hq⟩ := eq_cons_of_fetch_illegal fetched
    exact ⟨_, [_], [], illegal, rfl, by simp, by simp, by simp, [.send b], hq.symm⟩
  · obtain ⟨-, hq⟩ := eq_encode_append_of_fetch fetched
    obtain ⟨E, -, run⟩ := exec_eq_run i { s with cmd := q }
    refine ⟨_, _, _, command.trans run, E.rsp_run _ _, Nat.le_refl 1, E.evt_run_config _, ?_, (encode i).map .send, ?_⟩
    · cases E.event <;> simp
    · rw [E.cmd_run, hq]

/-- The invariant does not look at the streams. -/
theorem State.Inv.of_sameFrame {s t : State} (inv : s.Inv) (h : s.SameFrame t) : t.Inv := by
  obtain ⟨active, size, buf⟩ := h
  rwa [State.Inv, ← active, ← size, ← buf]

theorem exec_keeps_inv {i : Instr} {s t : State} (inv : s.Inv) (h : exec i s = .next t) : t.Inv := by
  obtain ⟨E, fits, run⟩ := exec_eq_run i s
  cases run.symm.trans h
  exact (State.changed_inv fits.changes_allowed inv).of_sameFrame
    ⟨(E.active_run _ s).symm, (E.size_run _ s).symm, (E.buf_run _ s).symm⟩

theorem reset_inv : State.reset.Inv := ⟨rfl, nofun, fun _ => ⟨rfl, rfl⟩⟩

/-- Settles O12: RST leaves the frame of the reset state, a command makes changes that keep the invariant, and the other two kinds
of step leave the frame. -/
theorem stepKeepsTheInvariant : Obligations.StepKeepsTheInvariant := by
  unfold Obligations.StepKeepsTheInvariant
  intro s t inv h
  obtain ⟨-, wait⟩ | ⟨q, -, rst⟩ | ⟨q, -, illegal⟩ | ⟨i, q, -, command⟩ := step_cases s
  · cases wait.symm.trans h
    exact inv
  · cases rst.symm.trans h
    exact reset_inv.of_sameFrame ⟨rfl, rfl, rfl⟩
  · cases illegal.symm.trans h
    exact inv.of_sameFrame ⟨rfl, rfl, rfl⟩
  · have kept : State.Inv { s with cmd := q } := inv.of_sameFrame ⟨rfl, rfl, rfl⟩
    exact exec_keeps_inv kept (command.symm.trans h)

/-- Settles O18: a command other than `CONSTRUCT` leaves both, and so does a step that waits or answers a reserved opcode. -/
theorem onlyConstructAndRstChangeTheLifecycle : Obligations.OnlyConstructAndRstChangeTheLifecycle := by
  unfold Obligations.OnlyConstructAndRstChangeTheLifecycle
  intro s t h changed
  obtain ⟨-, wait⟩ | ⟨q, fetched, rst⟩ | ⟨q, -, illegal⟩ | ⟨i, q, fetched, command⟩ := step_cases s
  · cases wait.symm.trans h
    simp at changed
  · cases rst.symm.trans h
    obtain ⟨bs, hq, incomplete⟩ := eq_append_of_fetch_rst fetched
    exact .inr ⟨bs, q, hq, incomplete, rfl, rfl, rfl⟩
  · cases illegal.symm.trans h
    simp at changed
  · obtain ⟨-, hq⟩ := eq_encode_append_of_fetch fetched
    by_cases construct : i.opcode = .construct
    case pos =>
      cases i <;> cases construct
      cases (command.trans (exec_construct _ _)).symm.trans h
      exact .inl ⟨_, q, hq, rfl, rfl, rfl⟩
    case neg =>
      obtain ⟨E, fits, run⟩ := exec_eq_run i { s with cmd := q }
      cases (command.trans run).symm.trans h
      obtain ⟨active, size⟩ := State.changed_lifecycle fits.changes_allowed construct
      simp [active, size] at changed

/-! ## The reset state -/

/-- Settles O10: the reset state is this record. -/
theorem resetStateValues : Obligations.ResetStateValues := by
  unfold Obligations.ResetStateValues
  rfl

/-- Settles O11: the reset state has no cell and no frame. -/
theorem resetMeetsTheInvariant : Obligations.ResetMeetsTheInvariant := by
  unfold Obligations.ResetMeetsTheInvariant
  exact reset_inv

end Sys2Proof.Machine
end

