-- ==== Sys2Proof/Proofs/Assembler.lean ====
section
/-! The assembler on parsed lines (30_encoding.md rule R76): a mnemonic with operands stands for a command exactly when the
operands are the command's own, written as numbers and lists. -/

namespace Sys2Proof.Machine

/-! ## Numbers and lists -/

/-- A number that fits the width gives the word of that value. -/
theorem ofNat_of_fits_eq_some_iff {w n : Nat} {b : BitVec w} :
    (if n < 2 ^ w then some (BitVec.ofNat w n) else none) = some b ↔ n = b.toNat := by
  split
  case isTrue small => rw [Option.some.injEq, ← BitVec.toNat_inj, BitVec.toNat_ofNat, Nat.mod_eq_of_lt small]
  case isFalse large => exact ⟨nofun, fun h => absurd (h ▸ b.isLt) large⟩

theorem asmByte_eq_some_iff (n : Nat) (b : Byte) : asmByte n = some b ↔ n = b.toNat := ofNat_of_fits_eq_some_iff

theorem asmColor_eq_some_iff (n : Nat) (c : Color) : asmColor n = some c ↔ n = c.toNat := ofNat_of_fits_eq_some_iff

theorem asmEach_cons_eq_some_iff {α : Type} {f : Nat → Option α} {n : Nat} {ns : List Nat} {l : List α} :
    asmEach f (n :: ns) = some l ↔ ∃ a as, l = a :: as ∧ f n = some a ∧ asmEach f ns = some as := by
  cases head : f n with
  | none => simp [asmEach, head]
  | some a => cases tail : asmEach f ns <;> simp [asmEach, head, tail, eq_comm]

/-- Where numbers assemble to the values they are the numbers of, lists of numbers assemble to lists of such values. -/
theorem asmEach_eq_some_iff {α : Type} {f : Nat → Option α} {value : α → Nat} (h : ∀ n a, f n = some a ↔ n = value a) :
    ∀ {ns : List Nat} {l : List α}, asmEach f ns = some l ↔ ns = l.map value
  | [], l => by simp [asmEach, eq_comm]
  | n :: ns, l => by
    rw [asmEach_cons_eq_some_iff, eq_comm, List.map_eq_cons_iff]
    simp only [h, asmEach_eq_some_iff h, eq_comm]

theorem asmBytes_eq_some_iff {ns : List Nat} {l : List Byte} : asmEach asmByte ns = some l ↔ ns = l.map BitVec.toNat :=
  asmEach_eq_some_iff asmByte_eq_some_iff

theorem asmColors_eq_some_iff {ns : List Nat} {l : List Color} : asmEach asmColor ns = some l ↔ ns = l.map BitVec.toNat :=
  asmEach_eq_some_iff asmColor_eq_some_iff

@[simp] theorem asmByte_toNat (b : Byte) : asmByte b.toNat = some b := (asmByte_eq_some_iff _ b).mpr rfl
@[simp] theorem asmColor_toNat (c : Color) : asmColor c.toNat = some c := (asmColor_eq_some_iff _ c).mpr rfl
@[simp] theorem asmBytes_toNat (l : List Byte) : asmEach asmByte (l.map BitVec.toNat) = some l := asmBytes_eq_some_iff.mpr rfl
@[simp] theorem asmColors_toNat (l : List Color) : asmEach asmColor (l.map BitVec.toNat) = some l :=
  asmColors_eq_some_iff.mpr rfl

/-! ## Commands -/

/-- A mnemonic with operands stands for the command of that mnemonic with exactly these operands. -/
theorem asmInstr_eq_some_iff {o : Opcode} {operands : List AsmOperand} {i : Instr} :
    asmInstr o operands = some i ↔ i.opcode = o ∧ operands = asmOperandsOf i := by
  constructor
  case mp =>
    intro h
    unfold asmInstr at h
    split at h
    -- the last branch: operands of another shape
    case h_21 => cases h
    all_goals
      simp only [Option.bind_eq_bind, Option.bind_eq_some_iff, Option.pure_def, Option.some.injEq, asmByte_eq_some_iff,
        asmColor_eq_some_iff, asmBytes_eq_some_iff, asmColors_eq_some_iff] at h
    -- no operand, three, two, one
    case h_16 | h_17 | h_18 => subst h; exact ⟨rfl, rfl⟩
    case h_1 | h_8 | h_12 | h_14 | h_20 => obtain ⟨a, rfl, b, rfl, c, rfl, rfl⟩ := h; exact ⟨rfl, rfl⟩
    case h_7 | h_13 | h_15 => obtain ⟨a, rfl, b, rfl, rfl⟩ := h; exact ⟨rfl, rfl⟩
    all_goals obtain ⟨a, rfl, rfl⟩ := h; exact ⟨rfl, rfl⟩
  case mpr =>
    rintro ⟨rfl, rfl⟩
    cases i <;> simp [asmInstr, asmOperandsOf, Instr.opcode]

/-- Settles O6: the line assembles to the encoding of the command it stands for, if that one is well-formed. -/
theorem assemblerAgreesWithEncode : Obligations.AssemblerAgreesWithEncode := by
  unfold Obligations.AssemblerAgreesWithEncode
  refine ⟨fun i wf => ?assembles, fun o operands bs h => ?inverts, rfl, rfl⟩
  case assembles =>
    have stands : asmInstr i.opcode (asmOperandsOf i) = some i := asmInstr_eq_some_iff.mpr ⟨rfl, rfl⟩
    simp only [assemble, stands, if_pos wf]
  case inverts =>
    cases stands : asmInstr o operands with
    | none => simp [assemble, stands] at h
    | some i =>
      simp only [assemble, stands, Option.ite_none_right_eq_some, Option.some.injEq] at h
      obtain ⟨wf, rfl⟩ := h
      obtain ⟨opcode, own⟩ := asmInstr_eq_some_iff.mp stands
      exact ⟨i, opcode, wf, own, rfl⟩

end Sys2Proof.Machine
end

