-- ==== Sys2Proof/Proofs/PaletteLists.lean ====
section
/-! The palette commands on lists, and the inverse laws of the codec and the palette (40_colorcodec.md rule R103, 41_palette.md
rules R113, R116, R120 to R122). A packed byte is read as a number in base 4, its fields as the digits. -/

namespace Sys2Proof.Machine

/-! ## Digits -/

/-- Digit `k` of a number given by its digits. -/
theorem ofDigits_div_pow_mod {b : Nat} (hb : 0 < b) : ∀ {l : List Nat}, (∀ d ∈ l, d < b) → ∀ k : Nat,
    Nat.ofDigits b l / b ^ k % b = l.getD k 0
  | [], _, k => by simp
  | d :: l, h, 0 => by
    rw [Nat.pow_zero, Nat.div_one, Nat.ofDigits_cons, Nat.add_mul_mod_self_left, Nat.mod_eq_of_lt (h d (by simp))]; rfl
  | d :: l, h, k + 1 => by
    have rest : ∀ e ∈ l, e < b := fun e he => h e (List.mem_cons_of_mem _ he)
    rw [Nat.pow_succ', ← Nat.div_div_eq_div_mul, Nat.ofDigits_cons, Nat.add_mul_div_left _ _ hb,
      Nat.div_eq_of_lt (h d (by simp)), Nat.zero_add, ofDigits_div_pow_mod hb rest k]; rfl

/-! ## The codec (rule R103) -/

theorem unpack_pack (r g b : Byte) : unpack (pack r g b) = (r, g, b) := by
  have channels := colorBytes_pack r g b
  simp only [colorBytes, List.cons.injEq, and_true] at channels
  obtain ⟨red, green, blue⟩ := channels
  rw [unpack_eq_channels, red, green, blue]

theorem pack_unpack (c : Color) : pack (unpack c).1 (unpack c).2.1 (unpack c).2.2 = c := by
  rw [unpack_eq_channels, ← colorOfBytes_eq_pack, colorOfBytes_channels]

/-- Settles O27: each function undoes the other. -/
theorem packAndUnpackAreInverse : Obligations.PackAndUnpackAreInverse := by
  unfold Obligations.PackAndUnpackAreInverse
  exact ⟨unpack_pack, pack_unpack, Function.bijective_iff_has_inverse.mpr
    ⟨unpack, fun t => unpack_pack t.1 t.2.1 t.2.2, pack_unpack⟩⟩

/-! ## Fields (rule R113) -/

/-- A byte is its four fields in base 4, so the fields determine it. -/
theorem lanes_injective : Function.Injective lanes := fun b c h => by
  have fields (b : Byte) : b.toNat = (indexAt b 0).toNat + 4 * (indexAt b 1).toNat + 16 * (indexAt b 2).toNat
      + 64 * (indexAt b 3).toNat := by
    have := b.isLt
    simp only [indexAt_toNat]
    simp
    omega
  simp only [lanes, List.cons.injEq, and_true] at h
  obtain ⟨h0, h1, h2, h3⟩ := h
  exact BitVec.eq_of_toNat_eq (by rw [fields b, fields c, h0, h1, h2, h3])

theorem setIndexAt_indexAt (b : Byte) (k : Index) : setIndexAt b k (indexAt b k) = b := by
  apply BitVec.eq_of_getLsbD_eq
  intro n hn
  rw [getLsbD_setIndexAt _ _ _ hn]
  split
  case isTrue inside =>
    rw [getLsbD_indexAt _ _ (by omega), Nat.add_sub_cancel' (by omega)]
  case isFalse => rfl

theorem setIndexAt_setIndexAt (b : Byte) (k v w : Index) : setIndexAt (setIndexAt b k v) k w = setIndexAt b k w := by
  apply BitVec.eq_of_getLsbD_eq
  intro n hn
  simp only [getLsbD_setIndexAt _ _ _ hn]
  split <;> rfl

/-- Settles O38: the value of a field, and what an insert does to each field and to the byte. -/
theorem fieldInsertAndExtract : Obligations.FieldInsertAndExtract := by
  unfold Obligations.FieldInsertAndExtract
  exact fun b k j v w => ⟨indexAt_toNat b k, indexAt_setIndexAt_same b k v, indexAt_setIndexAt_of_ne b v,
    setIndexAt_indexAt b k, setIndexAt_setIndexAt b k v w⟩

/-! ## Packing indices (rule R116) -/

/-- An index ORed in above the bits of a byte is added as its next digit. -/
theorem or_shiftLeft_toNat {b idx : Byte} {k : Nat} (hb : b.toNat < 4 ^ k) (hi : idx.toNat < 4) (hk : k < 4) :
    (b ||| (idx <<< (2 * k))).toNat = b.toNat + 4 ^ k * idx.toNat := by
  have shifted : idx.toNat <<< (2 * k) < 2 ^ 8 := by
    have : k = 0 ∨ k = 1 ∨ k = 2 ∨ k = 3 := by omega
    rcases this with rfl | rfl | rfl | rfl <;> omega
  have base : 4 ^ k = 2 ^ (2 * k) := by rw [Nat.pow_mul]
  rw [BitVec.toNat_or, BitVec.toNat_shiftLeft, Nat.mod_eq_of_lt shifted, Nat.or_comm,
    ← Nat.shiftLeft_add_eq_or_of_lt (base ▸ hb), Nat.shiftLeft_eq, ← base, Nat.mul_comm, Nat.add_comm]

/-- The loop appends the elements to the byte as digits in base 4. -/
theorem packLanes_toNat : ∀ (l : List Byte) (k : Nat) (b : Byte), (∀ i ∈ l, i.toNat < 4) → b.toNat < 4 ^ k →
    k + l.length ≤ 4 → (packLanes k b l).toNat = b.toNat + 4 ^ k * Nat.ofDigits 4 (l.map BitVec.toNat)
  | [], k, b, _, _, _ => by simp [packLanes]
  | idx :: l, k, b, small, hb, hk => by
    rw [List.length_cons] at hk
    have hi : idx.toNat < 4 := small idx (by simp)
    have next := or_shiftLeft_toNat hb hi (show k < 4 by omega)
    have fits : b.toNat + 4 ^ k * idx.toNat < 4 ^ (k + 1) := by
      have : 4 ^ k * idx.toNat ≤ 4 ^ k * 3 := Nat.mul_le_mul_left _ (by omega)
      rw [Nat.pow_succ]; omega
    rw [packLanes, packLanes_toNat l (k + 1) _ (fun i h => small i (List.mem_cons_of_mem _ h)) (next ▸ fits) (by omega), next,
      List.map_cons, Nat.ofDigits_cons, Nat.pow_succ]
    ring

/-- Field `k` of the packed byte is element `k`, and zero beyond the last element. -/
theorem packLanes_field {l : List Byte} (small : ∀ i ∈ l, i.toNat < 4) (length : l.length ≤ 4) (k : Nat) :
    (packLanes 0 0 l).toNat / 4 ^ k % 4 = (l.getD k 0).toNat := by
  have value : (packLanes 0 0 l).toNat = Nat.ofDigits 4 (l.map BitVec.toNat) := by
    simpa using packLanes_toNat l 0 0 small (by simp) (by omega)
  rw [value, ofDigits_div_pow_mod (by decide) (by simpa using small)]
  exact List.getD_map l 0 BitVec.toNat

theorem packIndices_of_small {l : List Byte} (small : ∀ i ∈ l, i.toNat < 4) (length : l.length ≤ 4) :
    packIndices l = .ok (packLanes 0 0 l) := by
  have noneLarge : l.any atLeast4 = false := by simpa [atLeast4] using small
  rw [packIndices, if_neg (Nat.not_lt.mpr length), noneLarge]; rfl

/-- Settles O31: the packed byte by its fields; the count is checked first. -/
theorem packidxResult : Obligations.PackidxResult := by
  unfold Obligations.PackidxResult
  refine fun l s => ⟨rfl, fun length small => ⟨packLanes 0 0 l, ?packed, fun k _ => packLanes_field small length k⟩,
    ?tooMany, ?large⟩
  case packed =>
    change execPackidx l s = _
    rw [execPackidx, packIndices_of_small small length]; rfl
  case tooMany =>
    intro length
    change execPackidx l s = _
    rw [execPackidx, packIndices, if_pos length]; rfl
  case large =>
    intro length large
    have someLarge : l.any atLeast4 = true := by simpa [atLeast4] using large
    change execPackidx l s = _
    rw [execPackidx, packIndices, if_neg (Nat.not_lt.mpr length), if_pos someLarge]; rfl

/-! ## Looking lists up (rules R120, R121) -/

theorem mapUntilError_map {α β γ : Type} (f : β → Except CmdError γ) (g : α → β) :
    ∀ l : List α, mapUntilError f (l.map g) = mapUntilError (fun a => f (g a)) l
  | [] => rfl
  | a :: l => by simp only [List.map_cons, mapUntilError, mapUntilError_map f g l]

theorem colorIndex_cases (c : Color) : colorIndex c = .error .colorNotInPalette ∨ ∃ i, colorIndex c = .ok i := by
  cases found : colorIndex c with
  | error e => exact .inl (congrArg _ (eq_of_colorIndex_eq_error found))
  | ok i => exact .inr ⟨i, rfl⟩

theorem colorFromIndex_cases (idx : Byte) :
    colorFromIndex idx = .error .indexOutOfRange ∨ ∃ c, colorFromIndex idx = .ok c := by
  cases found : colorFromIndex idx with
  | error e => exact .inl (congrArg _ (eq_of_colorFromIndex_eq_error found))
  | ok c => exact .inr ⟨c, rfl⟩

theorem colorFromIndex_indexByte (i : Index) : colorFromIndex (indexByte i) = .ok (PAL i) :=
  colorFromIndex_of_toNat_eq (indexByte_toNat i)

/-- Settles O35: the colors of a list of indices are found at these indices, and one that is in no entry ends the command. -/
theorem c2iResult : Obligations.C2iResult := by
  unfold Obligations.C2iResult
  refine ⟨fun _ => rfl, fun is s => ?found, fun cs s notInPalette => ?missing⟩
  case found =>
    have looked : mapUntilError colorIndex (is.map PAL) = .ok is := by
      rw [mapUntilError_map, mapUntilError_of_forall_ok _ id is fun i _ => colorIndex_PAL i, List.map_id]
    change execC2i (is.map PAL) s = _
    rw [execC2i, looked]; rfl
  case missing =>
    obtain ⟨c, hc, missing⟩ := notInPalette
    change execC2i cs s = _
    rw [execC2i, mapUntilError_of_exists_error colorIndex .colorNotInPalette cs (fun c _ => colorIndex_cases c)
      ⟨c, hc, colorIndex_of_forall_ne missing⟩]; rfl

/-- Settles O36: the indices of a list are looked up one by one, and one of 4 or more ends the command. -/
theorem i2cResult : Obligations.I2cResult := by
  unfold Obligations.I2cResult
  refine ⟨fun _ => rfl, fun is s => ?found, fun idxs s outOfRange => ?large⟩
  case found =>
    have looked : mapUntilError colorFromIndex (is.map indexByte) = .ok (is.map PAL) := by
      rw [mapUntilError_map, mapUntilError_of_forall_ok _ PAL is fun i _ => colorFromIndex_indexByte i]
    have bytes : (is.map PAL).flatMap colorBytes = is.flatMap fun i => colorBytes (PAL i) := List.flatMap_map ..
    change execI2c (is.map indexByte) s = _
    rw [execI2c, looked, ← bytes]; rfl
  case large =>
    obtain ⟨idx, hidx, large⟩ := outOfRange
    change execI2c idxs s = _
    rw [execI2c, mapUntilError_of_exists_error colorFromIndex .indexOutOfRange idxs (fun idx _ => colorFromIndex_cases idx)
      ⟨idx, hidx, colorFromIndex_of_four_le large⟩]; rfl

/-! ## The inverse laws of the palette (rule R122) -/

/-- A color that is found at an index is the color of that index. -/
theorem PAL_of_colorIndex_eq_ok {c : Color} {i : Index} (h : colorIndex c = .ok i) : PAL i = c := by
  unfold colorIndex at h
  split at h
  case h_1 j found =>
    cases h
    simpa using List.find?_some found
  case h_2 => cases h

theorem indexByte_lt_four (i : Index) : (indexByte i).toNat < 4 := indexByte_toNat i ▸ i.isLt

/-- Unpacking what was packed: element by element, zero beyond the last. -/
theorem lanes_packLanes {is : List Index} (length : is.length ≤ 4) :
    lanes (packLanes 0 0 (is.map indexByte)) = is ++ List.replicate (4 - is.length) 0 := by
  have field (k : Index) : indexAt (packLanes 0 0 (is.map indexByte)) k = is.getD k.toNat 0 := by
    apply BitVec.eq_of_toNat_eq
    rw [indexAt_toNat, packLanes_field (by simpa using fun i _ => indexByte_lt_four i) (by simpa using length),
      show (0 : Byte) = indexByte 0 from rfl, List.getD_map, indexByte_toNat]
  rw [lanes, field, field, field, field]
  match is, length with
  | [], _ | [_], _ | [_, _], _ | [_, _, _], _ | [_, _, _, _], _ => rfl

theorem packIndices_map_indexByte {is : List Index} (length : is.length ≤ 4) :
    packIndices (is.map indexByte) = .ok (packLanes 0 0 (is.map indexByte)) :=
  packIndices_of_small (by simpa using fun i _ => indexByte_lt_four i) (by simpa using length)

/-- Settles O37: the lookups undo each other, and so do packing and unpacking; the fields of a byte determine it. -/
theorem paletteLaws : Obligations.PaletteLaws := by
  unfold Obligations.PaletteLaws
  refine ⟨fun c i h => PAL_of_colorIndex_eq_ok h ▸ colorFromIndex_indexByte i,
    fun i => ⟨colorFromIndex_indexByte i, colorIndex_PAL i⟩,
    fun is length => ⟨_, packIndices_map_indexByte length, lanes_packLanes length⟩, fun b => ?repacked⟩
  case repacked =>
    have four : (lanes b).length = 4 := rfl
    have same : packLanes 0 0 ((lanes b).map indexByte) = b :=
      lanes_injective ((lanes_packLanes (Nat.le_of_eq four)).trans (by simp [four]))
    exact (packIndices_map_indexByte (Nat.le_of_eq four)).trans (congrArg _ same)

end Sys2Proof.Machine
end

