-- ==== Sys2Proof/Proofs/BitString.lean ====
section
/-! The sizes and the mapper (10_state.md rule R24, 20_memory.md rules R44, R45), and BUF as one number in base 256, whose digits
in base 4 are the pixels (20_memory.md rule R43). -/

namespace Sys2Proof.Machine

/-! ## Sizes and mapper -/

/-- A square leaves 0 or 1 over when divided by 4, as its side does when divided by 2. -/
theorem mul_self_mod_four (n : Nat) : n * n % 4 = n % 2 := by
  have cases4 : n % 4 = 0 ∨ n % 4 = 1 ∨ n % 4 = 2 ∨ n % 4 = 3 := by omega
  have half : n % 2 = n % 4 % 2 := by omega
  rw [Nat.mul_mod, half]
  rcases cases4 with h | h | h | h <;> rw [h]

/-- Settles O39: both sizes by value, of which the square of the side is at most 255 * 255. -/
theorem frameSizesAreExact : Obligations.FrameSizesAreExact := by
  unfold Obligations.FrameSizesAreExact
  intro n
  have square := size_mul_size_le n
  rw [totalBytes_toNat, totalPixels_toNat]
  refine ⟨rfl, rfl, square, ?capacity, mul_self_mod_four n.toNat⟩
  case capacity =>
    simp only [Config.bufCapacity]
    omega

/-- Settles O40: the place of an in-bounds pixel by value, which determines row and column. -/
theorem mapperIsExactAndInjective : Obligations.MapperIsExactAndInjective := by
  unfold Obligations.MapperIsExactAndInjective
  refine ⟨fun _ _ _ => inBounds_iff, fun n x y bounds => ?place, fun n x y x' y' bounds bounds' same => ?injective⟩
  case place =>
    obtain ⟨hx, hy⟩ := inBounds_iff.mp bounds
    exact ⟨pixelMap_byte_toNat hx hy, pixelMap_field_toNat hx hy, totalPixels_toNat n ▸ rowMajor_lt hx hy,
      pixelMap_lt_totalBytes hx hy⟩
  case injective =>
    obtain ⟨hx, hy⟩ := inBounds_iff.mp bounds
    obtain ⟨hx', hy'⟩ := inBounds_iff.mp bounds'
    exact pixelMap_injective hx' hy' hx hy same

/-! ## BUF as one number -/

theorem littleEndian_eq_ofDigits : ∀ l : List Byte, littleEndian l = Nat.ofDigits 256 (l.map BitVec.toNat)
  | [] => rfl
  | b :: l => by rw [littleEndian, littleEndian_eq_ofDigits l, List.map_cons, Nat.ofDigits_cons]

/-- Byte `a` of the number. -/
theorem littleEndian_byte (l : List Byte) (a : Nat) : littleEndian l / 256 ^ a % 256 = (l.getD a 0).toNat := by
  have bytes : ∀ d ∈ l.map BitVec.toNat, d < 256 := by simpa using fun b _ => b.isLt
  rw [littleEndian_eq_ofDigits, ofDigits_div_pow_mod (by decide) bytes]
  exact List.getD_map l 0 BitVec.toNat

/-- A digit in base 4 is a digit of the byte it lies in. -/
theorem div_four_pow_mod (m p : Nat) : m / 4 ^ p % 4 = m / 256 ^ (p / 4) % 256 / 4 ^ (p % 4) % 4 := by
  have power : 4 ^ p = 256 ^ (p / 4) * 4 ^ (p % 4) := by
    conv_lhs => rw [← Nat.div_add_mod p 4, Nat.pow_add, Nat.pow_mul]
  rw [power, ← Nat.div_div_eq_div_mul]
  have field : p % 4 = 0 ∨ p % 4 = 1 ∨ p % 4 = 2 ∨ p % 4 = 3 := by omega
  rcases field with h | h | h | h <;> rw [h] <;> omega

/-- Settles O41: the pixel is a field of its byte, which is a digit of the number. -/
theorem bufIsALittleEndianBitString : Obligations.BufIsALittleEndianBitString := by
  unfold Obligations.BufIsALittleEndianBitString
  intro s x y bounds
  obtain ⟨hx, hy⟩ := inBounds_iff.mp bounds
  have byte := bufBytes_getElem? (div_four_lt_totalBytes (rowMajor_lt hx hy))
  rw [div_four_pow_mod, littleEndian_byte, List.getD_eq_getElem?_getD, byte, State.pixelAt_toNat hx hy]
  rfl

end Sys2Proof.Machine
end

