-- ==== Sys2Proof/Proofs/BatchElements.lean ====
section
/-! A batch element by element (42_pixelframe.md rules R148, R150): which elements are applied, and what their writes leave in
each pixel and in each byte. -/

namespace Sys2Proof.Machine

/-! ## The writes of in-bounds elements -/

section Elements
variable {n x y : Byte} {l : List Triple}

/-- The pixel of the element lies in a frame of side `n`. -/
def InFrame (n : Byte) (e : Triple) : Prop := e.1.toNat < n.toNat ∧ e.2.1.toNat < n.toNat

/-- Each pixel holds what the last element naming it wrote, else what it held. -/
theorem State.pixelAt_changed_elements {s : State} (wf : Memory.wf s.buf = true) (inside : ∀ e ∈ l, InFrame s.size e)
    (hx : x.toNat < s.size.toNat) (hy : y.toNat < s.size.toNat) :
    (s.changed (l.map elementChange)).pixelAt x y = lastIndex l x y (s.pixelAt x y) := by
  induction l generalizing s with
  | nil => rfl
  | cons e l ih =>
    obtain ⟨hex, hey⟩ := inside e (by simp)
    have later := ih (s := s.setPixel e.1 e.2.1 (low2 e.2.2)) (Memory.write_wf _ _ wf)
      (fun d hd => inside d (List.mem_cons_of_mem _ hd)) hx hy
    rw [State.pixelAt_setPixel _ wf hex hey hx hy] at later
    simp only [eq_comm (a := x), eq_comm (a := y)] at later
    exact later

/-- A byte that no element is mapped to is as before. -/
theorem State.byteAt_changed_elements {s : State} (wf : Memory.wf s.buf = true) {a : Nat}
    (elsewhere : ∀ e ∈ l, (pixelMap s.size e.1 e.2.1).1.toNat ≠ a) :
    (s.changed (l.map elementChange)).byteAt a = s.byteAt a := by
  induction l generalizing s with
  | nil => rfl
  | cons e l ih =>
    have later := ih (s := s.setPixel e.1 e.2.1 (low2 e.2.2)) (Memory.write_wf _ _ wf)
      (fun d hd => elsewhere d (List.mem_cons_of_mem _ hd))
    rw [State.byteAt_setPixel _ _ _ wf, if_neg (elsewhere e (by simp)).symm] at later
    exact later

theorem State.changed_elements_lifecycle {s : State} (inside : ∀ e ∈ l, InFrame s.size e) :
    (s.changed (l.map elementChange)).active = s.active ∧ (s.changed (l.map elementChange)).size = s.size := by
  refine State.changed_lifecycle (o := .batch) (fun c hc => ?_) nofun
  obtain ⟨e, he, rfl⟩ := List.mem_map.mp hc
  obtain ⟨hx, hy⟩ := inside e he
  exact .pixel _ (by decide) hx hy

end Elements

/-! ## Which elements are applied -/

/-- The element passes both checks in a frame of side `n`. -/
def GoodElement (n : Byte) (e : Triple) : Prop := e.1.toNat < n.toNat ∧ e.2.1.toNat < n.toNat ∧ e.2.2.toNat < 4

section Applied
variable {n : Byte} {l : List Triple}

theorem pixelWriteError_of_good {e : Triple} (h : GoodElement n e) : pixelWriteError n e.1 e.2.1 e.2.2 = none :=
  pixelWriteError_eq_none_iff.mpr ⟨inBounds_iff.mpr ⟨h.1, h.2.1⟩, h.2.2⟩

theorem goodElements_of_good (good : ∀ e ∈ l, GoodElement n e) : goodElements n l = l :=
  List.takeWhile_eq_self_iff.mpr fun e he => by rw [pixelWriteError_of_good (good e he)]; rfl

theorem batchCheck_of_good (good : ∀ e ∈ l, GoodElement n e) : batchCheck n l = none :=
  List.findSome?_eq_none_iff.mpr fun e he => pixelWriteError_of_good (good e he)

variable {k : Nat} {x y idx : Byte} {e : CmdError} (good : ∀ e ∈ l.take k, GoodElement n e)
  (bad : l[k]? = some (x, y, idx)) (raises : pixelWriteError n x y idx = some e)
include good bad raises

/-- Behind the first `k` elements stands the one that raises. -/
theorem goodElements_eq_take_and_batchCheck : goodElements n l = l.take k ∧ batchCheck n l = some e := by
  obtain ⟨hk, here⟩ := List.getElem?_eq_some_iff.mp bad
  have cut : l = l.take k ++ (x, y, idx) :: l.drop (k + 1) := by
    rw [← here, ← List.drop_eq_getElem_cons, List.take_append_drop]
  constructor
  · conv_lhs => rw [cut]
    rw [goodElements, List.takeWhile_append_of_pos fun e he => by rw [pixelWriteError_of_good (good e he)]; rfl]
    rw [List.takeWhile_cons_of_neg (by simp [raises]), List.append_nil]
  · rw [cut, batchCheck, List.findSome?_append, ← batchCheck, batchCheck_of_good good, Option.none_or,
      List.findSome?_cons, raises]

end Applied

/-! ## The command -/

section Batch
variable {xs ys ids : List Byte} {s : State} (active : s.active = true) (hxy : xs.length = ys.length)
  (hyi : ys.length = ids.length)
include active hxy hyi

theorem exec_batch_of_good (good : ∀ e ∈ triples xs ys ids, GoodElement s.size e) : exec (.batch xs ys ids) s = .next
    (((s.changed ((triples xs ys ids).map elementChange)).emit Config.params (.batchSet (countByte xs))).reply (.ok [])) := by
  have lengths : sameLengths xs ys ids = true := by simp [sameLengths, hxy, hyi]
  have done := batchWith_of_check_none active Config.params lengths (batchLoop_eq_changed _ _) (batchCheck_of_good good)
  rwa [goodElements_of_good good] at done

theorem exec_batch_of_bad {k : Nat} {x y idx : Byte} {e : CmdError}
    (good : ∀ e ∈ (triples xs ys ids).take k, GoodElement s.size e) (bad : (triples xs ys ids)[k]? = some (x, y, idx))
    (raises : pixelWriteError s.size x y idx = some e) : exec (.batch xs ys ids) s =
      .next ((s.changed (((triples xs ys ids).take k).map elementChange)).reply (.error e)) := by
  have lengths : sameLengths xs ys ids = true := by simp [sameLengths, hxy, hyi]
  obtain ⟨applied, checked⟩ := goodElements_eq_take_and_batchCheck good bad raises
  have done := batchWith_of_check_error active Config.params lengths (batchLoop_eq_changed _ _) checked
  rwa [applied] at done

end Batch

/-- Settles O52: the two checks before any element, then the writes of all elements, or of those before the first bad one. -/
theorem batchAppliesElementsInOrder : Obligations.BatchAppliesElementsInOrder := by
  unfold Obligations.BatchAppliesElementsInOrder
  refine fun xs ys ids s => ⟨rfl, exec_of_inactive rfl nofun, ?lengths, ?applied, ?failed⟩
  case lengths =>
    intro active differ
    exact batchWith_of_lengths_differ active Config.params (by simpa [sameLengths] using differ)
  case applied =>
    intro active inv hxy hyi good
    obtain ⟨wf, -, -⟩ := inv
    have inside : ∀ e ∈ triples xs ys ids, InFrame s.size e := fun e he => ⟨(good e he).1, (good e he).2.1⟩
    obtain ⟨active', size'⟩ := State.changed_elements_lifecycle inside
    refine ⟨_, exec_batch_of_good active hxy hyi good, fun x y hx hy => ?_, fun a elsewhere => ?_, active'.trans active, ?_⟩
    · simp only [State.reply_pixelAt, State.emit_pixelAt, State.pixelAt_changed_elements wf inside hx hy]
    · simp only [State.reply_byteAt, State.emit_byteAt, State.byteAt_changed_elements wf elsewhere]
    · simp [size', countByte, Config.params]
  case failed =>
    intro k x y idx err active inv hxy hyi good bad failing
    obtain ⟨wf, -, -⟩ := inv
    have inside : ∀ e ∈ (triples xs ys ids).take k, InFrame s.size e := fun e he => ⟨(good e he).1, (good e he).2.1⟩
    obtain ⟨active', size'⟩ := State.changed_elements_lifecycle inside
    have raises : pixelWriteError s.size x y idx = some err := by
      obtain ⟨outside, rfl⟩ | ⟨hx, hy, large, rfl⟩ := failing
      · exact pixelWriteError_of_not_inBounds (inBounds_eq_false_iff.mpr outside)
      · rw [pixelWriteError_of_inBounds (inBounds_iff.mpr ⟨hx, hy⟩), if_pos large]
    refine ⟨_, exec_batch_of_bad active hxy hyi good bad raises, fun x y hx hy => ?_, fun a elsewhere => ?_,
      active'.trans active, ?_⟩
    · simp only [State.reply_pixelAt, State.pixelAt_changed_elements wf inside hx hy]
    · simp only [State.reply_byteAt, State.byteAt_changed_elements wf elsewhere]
    · simp only [State.reply_size, State.reply_cmd, State.reply_rsp, State.reply_evt, State.changed_cmd, State.changed_rsp,
        State.changed_evt, size', and_self]

end Sys2Proof.Machine
end

