-- ==== Sys2Proof/Proofs/FrameLaws.lean ====
section
/-! Laws over two or more frame commands (42_pixelframe.md rules R151, R152): what is read after a write, a construction or a
fill, how the three bulk reads agree, and the empty frame. -/

namespace Sys2Proof.Machine

/-! ## Read after write -/

/-- Settles O54: `GETPX` answers the index of the pixel, which the write has changed in the pixel written and in no other. -/
theorem readAfterWrite : Obligations.ReadAfterWrite := by
  unfold Obligations.ReadAfterWrite
  intro x y idx s active inv hx hy small
  obtain ⟨wf, -, -⟩ := inv
  obtain ⟨t, written, -, -, -, active', size', -, -, -, pixels⟩ := writePixel_result active (low2 idx) hx hy wf
  have read {x' y' : Byte} (hx' : x'.toNat < s.size.toNat) (hy' : y'.toNat < s.size.toNat) :
      exec (.getpx x' y') t = .next (t.reply (.ok [indexByte (if x' = x ∧ y' = y then low2 idx else s.pixelAt x' y')])) := by
    rw [← pixels x' y' hx' hy']
    rw [← size'] at hx' hy'
    exact readPixel_of_inBounds hx' hy' active' _
  refine ⟨t, (exec_setpx_of_inBounds active hx hy small).trans written, ?same, fun x' y' hx' hy' other => ?other⟩
  case same => rw [read hx hy, if_pos ⟨rfl, rfl⟩, indexByte_low2 small]; rfl
  case other =>
    refine ⟨_, readPixel_of_inBounds hx' hy' active _, ?_⟩
    rw [read hx' hy', if_neg (by tauto)]; rfl

/-! ## Uniform frames -/

section Uniform
variable {t : State} {f : Index} (uniform : ∀ a < (totalBytes t.size).toNat, t.byteAt a = fillByte f)
include uniform

theorem bufBytes_of_uniform : bufBytes t = List.replicate (totalBytes t.size).toNat (fillByte f) := by
  refine List.ext_getElem? fun a => ?_
  rw [List.getElem?_replicate]
  split
  case isTrue ha => rw [bufBytes_getElem? ha, ← uniform a ha]; rfl
  case isFalse ha => exact List.getElem?_eq_none (bufBytes_length t ▸ Nat.le_of_not_lt ha)

theorem allIndices_of_uniform : allIndices t = List.replicate (t.size.toNat * t.size.toNat) f := by
  refine List.ext_getElem? fun p => ?_
  rw [List.getElem?_replicate]
  split
  case isTrue hp => rw [allIndices_getElem?_eq_indexAt hp, uniform _ (div_four_lt_totalBytes hp), indexAt_fillByte]
  case isFalse hp => exact List.getElem?_eq_none (allIndices_length t ▸ Nat.le_of_not_lt hp)

theorem exec_getraw_of_uniform (active : t.active = true) :
    exec .getraw t = .next (t.reply (.ok (List.replicate ((t.size.toNat * t.size.toNat + 3) / 4) (fillByte f)))) := by
  rw [exec_getraw_of_active active, bufBytes_of_uniform uniform, totalBytes_toNat]

theorem exec_getidx_of_uniform (active : t.active = true) :
    exec .getidx t = .next (t.reply (.ok (List.replicate (t.size.toNat * t.size.toNat) (indexByte f)))) := by
  rw [exec_getidx_of_active active, allIndices_of_uniform uniform, List.map_replicate]

end Uniform

/-- Settles O55: `CONSTRUCT` leaves the byte of four fields 0, `FRESET` that of four fields k, everywhere in BUF. -/
theorem freshAndFilledFrames : Obligations.FreshAndFilledFrames := by
  unfold Obligations.FreshAndFilledFrames
  refine ⟨fun size s => ⟨_, exec_construct size s, ?indices, ?bytes⟩, fun k s active small =>
    ⟨_, exec_freset_of_toNat_eq active (low2_toNat small).symm, ?filled⟩⟩
  case indices => exact exec_getidx_of_uniform (f := 0) (fun a _ => s.byteAt_constructed size a) rfl
  case bytes => exact exec_getraw_of_uniform (f := 0) (fun a _ => s.byteAt_constructed size a) rfl
  case filled =>
    have read := exec_getidx_of_uniform
      (t := ((s.filled (low2 k)).emit Config.params .frameReset).reply (.ok [])) (f := low2 k)
      (fun a ha => s.byteAt_filled_of_lt (low2 k) ha) active
    rwa [indexByte_low2 small] at read

/-- Settles O56: both lists of pixels are made from the one list of indices, whose entries are fields of the bytes. -/
theorem bulkReadsAgree : Obligations.BulkReadsAgree := by
  unfold Obligations.BulkReadsAgree
  refine fun s active => ⟨_, _, exec_getraw_of_active active, exec_getidx_of_active active, exec_getcol_of_active active,
    (allIndices_length s).trans (totalPixels_toNat _).symm, fun p hp => ?field⟩
  case field =>
    rw [allIndices_length] at hp
    rw [allIndices_getElem?_eq_indexAt hp, bufBytes_getElem? (div_four_lt_totalBytes hp)]; rfl

/-! ## The empty frame (rule R152) -/

/-- A batch of no elements succeeds in any active frame. -/
theorem exec_batch_nil {t : State} (active : t.active = true) :
    exec (.batch [] [] []) t = .next ((t.emit Config.params (.batchSet 0)).reply (.ok [])) :=
  exec_batch_of_good active rfl rfl nofun

section Empty
variable {t : State} (active : t.active = true) (empty : t.size = 0)
include empty

/-- No coordinate lies in the empty frame. -/
theorem not_inBounds_of_empty (x y : Byte) : ¬ (x.toNat < t.size.toNat ∧ y.toNat < t.size.toNat) := by
  simp [empty]

theorem bufBytes_of_empty : bufBytes t = [] :=
  List.eq_nil_of_length_eq_zero (by rw [bufBytes_length, empty]; rfl)

theorem allIndices_of_empty : allIndices t = [] :=
  List.eq_nil_of_length_eq_zero (by rw [allIndices_length, empty]; rfl)

/-- Filling the empty frame fills no byte. -/
theorem State.filled_of_empty (noCells : t.buf = []) (f : Index) : t.filled f = t := by
  have noBytes : (totalBytes t.size).toNat = 0 := by rw [empty]; rfl
  rw [State.filled, noBytes, Memory.fill_zero, ← noCells]

include active

theorem exec_bulk_of_empty : ∀ i ∈ [Instr.getraw, .getidx, .getcol], exec i t = .next (t.reply (.ok [])) := by
  simp [exec_getraw_of_active active, exec_getidx_of_active active, exec_getcol_of_active active, bufBytes_of_empty empty,
    allIndices_of_empty empty]

/-- The first element of a batch already lies outside. -/
theorem exec_batch_of_empty {xs ys ids : List Byte} (nonempty : xs ≠ []) (hxy : xs.length = ys.length)
    (hyi : ys.length = ids.length) : exec (.batch xs ys ids) t = .next (t.reply (.error .coordinatesOutOfBounds)) := by
  match xs, ys, ids with
  | x :: xs, y :: ys, idx :: ids =>
    have outside := pixelWriteError_of_not_inBounds (i := idx) (inBounds_eq_false_iff.mpr (not_inBounds_of_empty empty x y))
    exact exec_batch_of_bad (k := 0) active hxy hyi nofun rfl outside
  | [], _, _ => exact absurd rfl nonempty
  | _ :: _, [], _ => cases hxy
  | _, _ :: _, [] => cases hyi

end Empty

/-- Settles O57: after `CONSTRUCT 0` no pixel is in bounds, the lists are empty, and a fill or an empty batch only emits. -/
theorem emptyFrameBehaviour : Obligations.EmptyFrameBehaviour := by
  unfold Obligations.EmptyFrameBehaviour
  intro s
  have outside := not_inBounds_of_empty (t := (s.constructed 0).reply (.ok [])) rfl
  refine ⟨_, exec_construct 0 s, rfl, rfl, fun x y idx => ?setpx, fun x y => ?getpx,
    fun x y i => exec_setpxc_PAL_of_not_inBounds rfl i (outside x y), fun x y => ?getpxc, exec_bulk_of_empty rfl rfl,
    fun fill small => ?freset, exec_batch_nil rfl, fun _ _ _ => exec_batch_of_empty rfl rfl⟩
  case setpx =>
    exact exec_setpx_of_error rfl (pixelWriteError_of_not_inBounds (inBounds_eq_false_iff.mpr (outside x y)))
  case getpx => exact readPixel_of_not_inBounds rfl (outside x y) fun i => [indexByte i]
  case getpxc => exact readPixel_of_not_inBounds rfl (outside x y) fun i => colorBytes (PAL i)
  case freset =>
    refine (exec_freset_of_toNat_eq rfl (low2_toNat small).symm).trans ?_
    rw [State.filled_of_empty rfl rfl]; rfl

end Sys2Proof.Machine
end
